-- ==== Sys2Proof/Word.lean ====
section
/-! DEFINITION. The widths of the core (00_scope.md R7): 32-bit registers and command words, 16-bit
length registers, 8-bit samples and bytes. -/

namespace Sys2Proof

/-- A 32-bit register, command word, window offset or bus transfer (R7, R51, R80). -/
abbrev Word := BitVec 32

/-- A 16-bit length register (R7, R28). -/
abbrev Half := BitVec 16

/-- A key, message or data byte, a pixel sample, or one byte lane of a bus transfer (R7, R57). -/
abbrev Byte := BitVec 8

end Sys2Proof
end

