-- ==== Sys2Proof/Config.lean ====
section
/-! DEFINITION. What an implementation of the core fixes (00_scope.md R6, 10_state.md R22) and the
values the spec leaves open (10_state.md R45, 70_reset_and_hazards.md R195). -/

namespace Sys2Proof

/-- The six buffers of the core (R36). -/
inductive Buf where
  | key     -- `KEY_MEM`
  | msg     -- `MSG_MEM`
  | data    -- `DATA_MEM`
  | bits    -- `BITS_MEM`
  | pixSrc  -- `PIX_SRC`
  | pixDst  -- `PIX_DST`
deriving DecidableEq, Repr

/-- The implementation parameters (R6). They never change; a state carries them so that every claim
about a state is a claim about every choice of them (log 1). -/
structure Params where
  /-- `BUF_BYTES`: bytes of `MSG_MEM` and of `DATA_MEM`; `BITS_MEM` has eight cells for each. -/
  bufBytes  : Nat
  /-- `KEY_MAX`: bytes of `KEY_MEM`. -/
  keyMax    : Nat
  /-- `SAMPLE_MAX`: samples of `PIX_SRC` and of `PIX_DST`. -/
  sampleMax : Nat
  /-- `BASE`: the host bus address of window offset 0 (R51). -/
  base      : Nat
deriving DecidableEq, Repr

/-- The legal ranges of the parameters (the table of R6). -/
abbrev Params.Legal (p : Params) : Prop :=
  (256 ≤ p.bufBytes ∧ p.bufBytes ≤ 4096) ∧ (1 ≤ p.keyMax ∧ p.keyMax ≤ 4096) ∧
    (8 ≤ p.sampleMax ∧ p.sampleMax ≤ 2 ^ 24)

/-- The parameters `State.reset` carries: the spec's defaults for `BUF_BYTES` and `KEY_MAX` (R6), and
for the two OPEN ones `SAMPLE_MAX = 4096` (the value of 95_test_vectors.md) and `BASE = 0`.
DESIGN CHOICE, log 1: no claim may rest on the last two. -/
def Params.default : Params :=
  { bufBytes := 256, keyMax := 256, sampleMax := 4096, base := 0 }

/-- The value of the read-only `ID` register (R2, R22). -/
def Config.idValue : Word := 0x53470001#32

/-- FREE VALUE (R45, R195): what draw number `draw` gives for element `index` of buffer `b` when that
element has no defined value. Nothing is known of it (log 2). -/
opaque Config.freeByte (draw : Nat) (b : Buf) (index : Nat) : Byte

/-- FREE VALUE (R195): what draw number `draw` gives for a length register that the pending command
is about to write (log 3). -/
opaque Config.freeHalf (draw : Nat) : Half

end Sys2Proof
end

