-- ==== Sys2Proof/Syntax.lean ====
section
/-! DEFINITION. The commands of the core: one constructor per row of `spec/opcode_table.json`
(30_encoding.md R81). -/

namespace Sys2Proof

/-- A command. All operands are fixed registers and buffers (R20, R80), but for the byte count of
`EXTRACT`, which the word carries (R82). -/
inductive Instr where
  /-- `LOCK`: encrypt `MSG_MEM` into `DATA_MEM` (R103). -/
  | lock
  /-- `UNLOCK`: decrypt `DATA_MEM` into `MSG_MEM` (R105). -/
  | unlock
  /-- `B2B`: expand `DATA_MEM` into the bit stream `BITS_MEM` (R121). -/
  | b2b
  /-- `EMBED`: copy `PIX_SRC` to `PIX_DST` with `BITS_MEM` in its low bits (R122). -/
  | embed
  /-- `EXTRACT count`: read `count` bytes from the low bits of `PIX_SRC` (R123). -/
  | extract (count : Nat)
  /-- `ENCODE`: lock, frame and embed the message (R141). -/
  | encode
  /-- `DECODE`: extract the frame and unlock it (R145). -/
  | decode
deriving DecidableEq, Repr

end Sys2Proof
end

