-- ==== Sys2Proof/WellFormed.lean ====
section
/-! DEFINITION. Which commands have a word (30_encoding.md R80, R82). -/

namespace Sys2Proof

/-- The one check: the count of `EXTRACT` fits its 16-bit field, "0 to 65535" (R80, R82). -/
def Instr.wellFormed : Instr → Bool
  | .lock => true
  | .unlock => true
  | .b2b => true
  | .embed => true
  | .extract count => decide (count < 2 ^ 16)
  | .encode => true
  | .decode => true

end Sys2Proof
end

