-- ==== Sys2Proof/Decode.lean ====
section
/-! DEFINITION. The command word: decoding (30_encoding.md R80 to R87), then the encoder, then the
match and mask table of R81. -/

namespace Sys2Proof

/-- Why a word is illegal: the three grounds of R83, and a transfer that is not one 32-bit word
(R84). All of them complete with `IllegalCommand` (log 12). -/
inductive Illegal where
  /-- `w[15:4] ≠ 0`. -/
  | reservedField
  /-- `w[3:0]` is `0x0` or in `0x8`–`0xF`. -/
  | reservedOpcode
  /-- `w[31:16] ≠ 0` in a word that is not `EXTRACT`. -/
  | countNotZero
  /-- Not exactly four bytes (R84: there is no shorter or longer form). -/
  | notOneWord
deriving DecidableEq, Repr

/-- What a word stands for. -/
inductive Decoded where
  | legal (i : Instr)
  | illegal (why : Illegal)
deriving DecidableEq, Repr

/-- The instruction, where there is one. -/
def Decoded.instr? : Decoded → Option Instr
  | .legal i => some i
  | .illegal _ => none

/-- Field `OP`, bits [3:0] (R80). -/
def fieldOp (w : Word) : BitVec 4 := w.extractLsb' 0 4

/-- Field `RSV`, bits [15:4] (R80). -/
def fieldRsv (w : Word) : BitVec 12 := w.extractLsb' 4 12

/-- Field `COUNT`, bits [31:16] (R80). -/
def fieldCount (w : Word) : Half := w.extractLsb' 16 16

/-- The format N opcodes (R81), for a word whose `COUNT` and `RSV` are 0. -/
def decodeFormatN (op : BitVec 4) : Decoded :=
  if op = 0x1#4 then .legal .lock
  else if op = 0x2#4 then .legal .unlock
  else if op = 0x3#4 then .legal .b2b
  else if op = 0x4#4 then .legal .embed
  else if op = 0x6#4 then .legal .encode
  else if op = 0x7#4 then .legal .decode
  else .illegal .reservedOpcode

/-- The decode function of R87, total on all 32-bit words. -/
def decode (w : Word) : Decoded :=
  if fieldRsv w ≠ 0#12 then .illegal .reservedField
  else if fieldOp w = 0x5#4 then .legal (.extract (fieldCount w).toNat)
  else if fieldCount w ≠ 0#16 then .illegal .countNotZero
  else decodeFormatN (fieldOp w)

/-- The word four bytes make, the first the least significant (R57). -/
def wordOfBytes (b0 b1 b2 b3 : Byte) : Word := b3 ++ b2 ++ b1 ++ b0

/-- The bytes of a word, in the order of their offsets (R57). -/
def bytesOfWord (w : Word) : List Byte :=
  [w.extractLsb' 0 8, w.extractLsb' 8 8, w.extractLsb' 16 8, w.extractLsb' 24 8]

/-- Decoding of any bytes: a command is exactly one 32-bit word (R84). -/
def decodeBytes : List Byte → Decoded
  | [b0, b1, b2, b3] => decode (wordOfBytes b0 b1 b2 b3)
  | _ => .illegal .notOneWord

/-- A format N word: `COUNT` 0, `RSV` 0 and the opcode (R80). -/
def formatN (op : BitVec 4) : Word := 0#16 ++ 0#12 ++ op

/-- A format C word: the count, `RSV` 0 and `OP` 5 (R80, R82). -/
def formatC (count : Half) : Word := count ++ 0#12 ++ 0x5#4

/-- The word of a command (R81); of a well-formed one, the only word. -/
def encode : Instr → Word
  | .lock => formatN 0x1#4
  | .unlock => formatN 0x2#4
  | .b2b => formatN 0x3#4
  | .embed => formatN 0x4#4
  | .extract count => formatC (BitVec.ofNat 16 count)
  | .encode => formatN 0x6#4
  | .decode => formatN 0x7#4

/-- One row of the match and mask table of R81. -/
structure OpcodeRow where
  mnemonic : String
  pattern  : Word
  mask     : Word
deriving DecidableEq, Repr

/-- The word matches the row. -/
def OpcodeRow.covers (r : OpcodeRow) (w : Word) : Bool := w &&& r.mask == r.pattern

/-- The match and mask table of R81, row by row. -/
def opcodeRows : List OpcodeRow :=
  [ { mnemonic := "LOCK", pattern := 0x00000001#32, mask := 0xFFFFFFFF#32 },
    { mnemonic := "UNLOCK", pattern := 0x00000002#32, mask := 0xFFFFFFFF#32 },
    { mnemonic := "B2B", pattern := 0x00000003#32, mask := 0xFFFFFFFF#32 },
    { mnemonic := "EMBED", pattern := 0x00000004#32, mask := 0xFFFFFFFF#32 },
    { mnemonic := "EXTRACT", pattern := 0x00000005#32, mask := 0x0000FFFF#32 },
    { mnemonic := "ENCODE", pattern := 0x00000006#32, mask := 0xFFFFFFFF#32 },
    { mnemonic := "DECODE", pattern := 0x00000007#32, mask := 0xFFFFFFFF#32 } ]

/-- The mnemonic of a command (R81, R88). -/
def Instr.mnemonic : Instr → String
  | .lock => "LOCK"
  | .unlock => "UNLOCK"
  | .b2b => "B2B"
  | .embed => "EMBED"
  | .extract _ => "EXTRACT"
  | .encode => "ENCODE"
  | .decode => "DECODE"

/-- The decoder on an opcode-table word: its 32 bits laid out as four little-endian bytes and given
to `decodeBytes`. -/
def decodeTableWord (nbits w : Nat) : Option Instr :=
  (decodeBytes (bytesOfWord (BitVec.ofNat 32 (w % 2 ^ nbits)))).instr?

end Sys2Proof
end

