-- ==== Sys2Proof/Machine/State.lean ====
section
/-! DEFINITION. The state of the core (10_state.md), the ways a step can stop, and the state right
after reset (R44, R190). -/

namespace Sys2Proof.Machine

/-- A buffer's contents: (element index, value), indices strictly rising. An index that is not listed
has not been written since reset and has no defined value (R45, log 10). With `w = 8` an entry is a
`Host.Cell`. -/
abbrev Memory (w : Nat) := List (Nat × BitVec w)

/-- The canonical form of a buffer's contents: indices strictly rising. -/
abbrev Memory.wf {w : Nat} (m : Memory w) : Prop := m.Pairwise (fun a b => a.1 < b.1)

/-- The fields of `STATUS` (R25). Bits [7:4] and [31:12] have no storage: they read 0. -/
structure Status where
  /-- Bit 0: a command is pending. -/
  busy    : Bool
  /-- Bit 1: a command has completed since the last acceptance. -/
  done    : Bool
  /-- Bit 2: the last completion was an error completion. -/
  err     : Bool
  /-- Bit 3: a host write was dropped because a command was pending. -/
  ovr     : Bool
  /-- Bits [11:8]: the error code of the last completion (R160). -/
  errcode : BitVec 4
deriving DecidableEq, Repr

/-- The width of a host access: 1, 2 or 4 bytes (R54). -/
inductive Width where
  | byte
  | half
  | word
deriving DecidableEq, Repr

/-- The kinds of bus error (R58). -/
inductive AccessFault where
  /-- The offset is not a multiple of the width (R54.1). -/
  | misaligned
  /-- The offset lies in no region (R52, R54.2). -/
  | unmapped
  /-- The access leaves the implemented part of a buffer (R52, R54.2). -/
  | outsideBuffer
  /-- A 1- or 2-byte access to the register page (R54.3, R55). -/
  | registerWidth
deriving DecidableEq, Repr

/-- One step of the world outside the core (R88, R89, R190). The steps of a host stand in State as a
queue (log 4). -/
inductive HostStep where
  /-- `rd8`, `rd16`, `rd32`. -/
  | read (off : Word) (width : Width)
  /-- `wr8`, `wr16`, `wr32`. -/
  | write (off : Word) (width : Width) (v : Word)
  /-- `wait`: read `STATUS`, again while bit 0 of the value read is 1. -/
  | wait
  /-- One round of `copy`: `rd8 PIX_DST[s]` giving `v`, then `wr8 PIX_SRC[s], v`. -/
  | copySample (s : Nat)
  /-- The reset input is asserted. -/
  | reset
deriving DecidableEq, Repr

/-- The two agents (R3). -/
inductive Agent where
  | host
  | core
deriving DecidableEq, Repr

/-- Why a step stops with a fault. -/
inductive Fault where
  /-- A bus error (R58): raised by a host step whose access the core does not admit. Safe: the core's
  state would be unchanged, and the model makes no claim about what the host does next (log 8). -/
  | hostAccessFault (offset : Word) (width : Width) (kind : AccessFault)
deriving DecidableEq, Repr

/-- Why a step is refused. -/
inductive Refusal where
  /-- An instruction that has no meaning yet. Raised by `exec` alone, by no arm of it now. Safe. -/
  | notModelled (mnemonic : String)
deriving DecidableEq, Repr

/-- Everything the spec gives the machine (10_state.md), then the model's own fields. -/
structure State where
  /-- The implementation parameters (R6); `PARAM_BUF`, `PARAM_KEY`, `PARAM_SAMPLES` read them (R34). -/
  params      : Params
  /-- `CMD`: the last accepted command word (R24). -/
  cmd         : Word
  /-- `STATUS` (R25). -/
  status      : Status
  /-- `ERR_INFO` (R27). -/
  errInfo     : Word
  /-- `KEY_LEN` (R29). -/
  keyLen      : Half
  /-- `MSG_LEN` (R30). -/
  msgLen      : Half
  /-- `DATA_LEN` (R31). -/
  dataLen     : Half
  /-- `BITS_LEN` (R32). -/
  bitsLen     : Half
  /-- `SAMPLE_COUNT` (R33); `CAPACITY` is a view of it. -/
  sampleCount : Word
  /-- `KEY_MEM` (R36). -/
  keyMem      : Memory 8
  /-- `MSG_MEM` (R36). -/
  msgMem      : Memory 8
  /-- `DATA_MEM` (R36). -/
  dataMem     : Memory 8
  /-- `BITS_MEM`: one-bit cells (R36, R38). -/
  bitsMem     : Memory 1
  /-- `PIX_SRC` (R36, R39). -/
  pixSrc      : Memory 8
  /-- `PIX_DST` (R36, R39). -/
  pixDst      : Memory 8
  /-- The pending command (R40). -/
  pending     : Option Word
  /-- Model's own: the number of the next draw of undefined values (R45, log 2). -/
  draws       : Nat
  /-- Model's own: the host's remaining steps, the next one first (log 4). -/
  host        : List HostStep
  /-- Model's own: the data the last host step returned, if it was a read (log 9). -/
  reply       : Option Word
  /-- Model's own: which agent moves at each of the next steps at which both could, the next one
  first; when none is left the core moves (R197, R198, log 5). -/
  turns       : List Agent
deriving DecidableEq, Repr

/-- `STATUS` after reset: 0 (R25, R44). -/
def Status.reset : Status :=
  { busy := false, done := false, err := false, ovr := false, errcode := 0#4 }

/-- The core after reset, whatever its parameters (the table of R44; R190). -/
def State.resetWith (p : Params) : State :=
  { params := p, cmd := 0x00000000#32, status := Status.reset, errInfo := 0x00000000#32,
    keyLen := 0#16, msgLen := 0#16, dataLen := 0#16, bitsLen := 0#16, sampleCount := 0#32,
    keyMem := [], msgMem := [], dataMem := [], bitsMem := [], pixSrc := [], pixDst := [],
    pending := none, draws := 0, host := [], reply := none, turns := [] }

/-- The core after reset, with the parameters of `Params.default` (log 1). -/
def State.reset : State := State.resetWith Params.default

end Sys2Proof.Machine
end

