-- ==== Sys2Proof/Machine/Flags.lean ====
section
/-! DEFINITION. Every computation on `STATUS` (10_state.md R25, R26, R42) and the error codes
(60_exceptions.md R160). The core has no other flags. -/

namespace Sys2Proof.Machine

/-- The error kinds (R160). -/
inductive ErrorKind where
  | emptyKey
  | unsupportedCharacter
  | messageTooLong
  | capacityExceeded
  | illegalCommand
  | limitExceeded
deriving DecidableEq, Repr

/-- The code of an error kind (the table of R160). -/
def ErrorKind.code : ErrorKind → BitVec 4
  | .emptyKey => 1#4
  | .unsupportedCharacter => 2#4
  | .messageTooLong => 3#4
  | .capacityExceeded => 4#4
  | .illegalCommand => 5#4
  | .limitExceeded => 6#4

/-- The 32-bit view of `STATUS`: `ERRCODE` at [11:8], `OVR` 3, `ERR` 2, `DONE` 1, `BUSY` 0, every
other bit 0 (R25). -/
def Status.word (st : Status) : Word :=
  0#20 ++ st.errcode ++ 0#4 ++ BitVec.ofBool st.ovr ++ BitVec.ofBool st.err ++
    BitVec.ofBool st.done ++ BitVec.ofBool st.busy

/-- `STATUS` at acceptance: busy, `DONE`, `ERR`, `ERRCODE` cleared, `OVR` unchanged (R85). -/
def Status.accepted (st : Status) : Status :=
  { busy := true, done := false, err := false, ovr := st.ovr, errcode := 0#4 }

/-- `STATUS` at completion with a code: not busy, done, `OVR` unchanged (R164). -/
def Status.completed (st : Status) (code : BitVec 4) : Status :=
  { busy := false, done := true, err := code != 0#4, ovr := st.ovr, errcode := code }

/-- `STATUS` after a host write of `v`: `OVR` is cleared where bit 3 of `v` is 1 (R26). -/
def Status.written (st : Status) (v : Word) : Status :=
  { st with ovr := st.ovr && !v.getLsbD 3 }

/-- `STATUS` after a host write was dropped: `OVR` is set (R194). -/
def Status.overrun (st : Status) : Status := { st with ovr := true }

end Sys2Proof.Machine
end

