-- ==== Sys2Proof/Machine/Ops.lean ====
section
/-! DEFINITION. The named operations over buffers and registers, acceptance and completion of a
command (30_encoding.md R85, 60_exceptions.md R164), and the effect of reset (70 R190). -/

namespace Sys2Proof

/-- The number of elements of a buffer (the table of R36). -/
def Buf.size (p : Params) : Buf → Nat
  | .key => p.keyMax
  | .msg => p.bufBytes
  | .data => p.bufBytes
  | .bits => 8 * p.bufBytes
  | .pixSrc => p.sampleMax
  | .pixDst => p.sampleMax

/-- What an element of the buffer keeps of a byte written to it: a bit cell keeps bit 0 (R37, R38). -/
def Buf.kept : Buf → Byte → Byte
  | .bits, v => v &&& 0x01#8
  | _, v => v

end Sys2Proof

namespace Sys2Proof.Machine

/-! ## One buffer's contents -/

/-- The value stored at index `i`; `none` where nothing was written since reset (R45). -/
def Memory.read {w : Nat} : Memory w → Nat → Option (BitVec w)
  | [], _ => none
  | (j, u) :: rest, i => if i = j then some u else Memory.read rest i

/-- Store `v` at index `i`, keeping the indices in rising order. -/
def Memory.write {w : Nat} : Memory w → Nat → BitVec w → Memory w
  | [], i, v => [(i, v)]
  | (j, u) :: rest, i, v =>
    if i < j then (i, v) :: (j, u) :: rest
    else if i = j then (i, v) :: rest
    else (j, u) :: Memory.write rest i v

/-- Store `f i` at every index `i < n`: the loop `for i in 0 .. n-1` of R9 with one write a round. -/
def Memory.writeBlock {w : Nat} (m : Memory w) (n : Nat) (f : Nat → BitVec w) : Memory w :=
  (List.range n).map (fun i => (i, f i)) ++ m.filter (fun c => decide (n ≤ c.1))

/-! ## The six buffers and the length registers that commands write -/

/-- The content of element `i` of a buffer, a bit cell as the byte `0000000c` (R36, R38); `none`
where it was not written since reset. -/
def State.cell (s : State) : Buf → Nat → Option Byte
  | .key, i => Memory.read s.keyMem i
  | .msg, i => Memory.read s.msgMem i
  | .data, i => Memory.read s.dataMem i
  | .bits, i => (Memory.read s.bitsMem i).map (fun c => c.setWidth 8)
  | .pixSrc, i => Memory.read s.pixSrc i
  | .pixDst, i => Memory.read s.pixDst i

/-- `MemWrite(b, i, v)` (R9); a bit cell stores `v[0]` (R38). -/
def State.setCell (s : State) (b : Buf) (i : Nat) (v : Byte) : State :=
  match b with
  | .key => { s with keyMem := Memory.write s.keyMem i v }
  | .msg => { s with msgMem := Memory.write s.msgMem i v }
  | .data => { s with dataMem := Memory.write s.dataMem i v }
  | .bits => { s with bitsMem := Memory.write s.bitsMem i (v.setWidth 1) }
  | .pixSrc => { s with pixSrc := Memory.write s.pixSrc i v }
  | .pixDst => { s with pixDst := Memory.write s.pixDst i v }

/-- `for i in 0 .. n-1: MemWrite(b, i, f i)` (R9). -/
def State.setBlock (s : State) (b : Buf) (n : Nat) (f : Nat → Byte) : State :=
  match b with
  | .key => { s with keyMem := Memory.writeBlock s.keyMem n f }
  | .msg => { s with msgMem := Memory.writeBlock s.msgMem n f }
  | .data => { s with dataMem := Memory.writeBlock s.dataMem n f }
  | .bits => { s with bitsMem := Memory.writeBlock s.bitsMem n (fun i => (f i).setWidth 1) }
  | .pixSrc => { s with pixSrc := Memory.writeBlock s.pixSrc n f }
  | .pixDst => { s with pixDst := Memory.writeBlock s.pixDst n f }

/-- `reg(MSG_LEN) <- v` (R30). -/
def State.setMsgLen (s : State) (v : Half) : State := { s with msgLen := v }

/-- `reg(DATA_LEN) <- v` (R31). -/
def State.setDataLen (s : State) (v : Half) : State := { s with dataLen := v }

/-- `reg(BITS_LEN) <- v` (R32). -/
def State.setBitsLen (s : State) (v : Half) : State := { s with bitsLen := v }

/-- The value draw number `draw` gives for an element without a defined value, in the element's
range: 0 to 255, or 0 to 1 for a bit cell (R45). -/
def drawElement (draw : Nat) (b : Buf) (i : Nat) : Byte := b.kept (Config.freeByte draw b i)

/-! ## Acceptance and completion -/

/-- Acceptance of a command word (the pseudocode of R85). -/
def State.accept (s : State) (w : Word) : State :=
  { s with cmd := w, pending := some w, status := s.status.accepted, errInfo := 0x00000000#32 }

/-- `complete(code, info)` (the pseudocode of R164): how every command ends, with or without an
error. The draws of the command are used up with it (R45). -/
def State.complete (s : State) (code : BitVec 4) (info : Word) : State :=
  { s with status := s.status.completed code, errInfo := info, pending := none,
           draws := s.draws + 1 }

/-- An error with its detail (R161): the `E(info)` of `raise E(info)`. -/
structure Raise where
  kind : ErrorKind
  info : Word
deriving DecidableEq, Repr

/-- `raise E(info)` (R9): an error completion, with no further write. -/
def State.raise (s : State) (r : Raise) : State := s.complete r.kind.code r.info

/-- The first check that fails, in the order of the command's pseudocode (R162). -/
def firstError : List (Option Raise) → Option Raise
  | [] => none
  | some r :: _ => some r
  | none :: rest => firstError rest

/-- The end of every command: the first failing check is raised from the state at acceptance, and
where none fails the written state completes with code 0 (R10, R162, R164). -/
def conclude (s : State) (checks : List (Option Raise)) (written : State) :
    Host.Outcome State Fault Refusal :=
  match firstError checks with
  | some r => .next (s.raise r)
  | none => .next (written.complete 0#4 0x00000000#32)

/-- An accepted word that decodes as illegal: `complete(5, w)` and nothing else (R169). -/
def execIllegal (w : Word) (s : State) : Host.Outcome State Fault Refusal :=
  conclude s [some ⟨.illegalCommand, w⟩] s

/-! ## Reset and the placing of a command -/

/-- The reset input is asserted: every register and the pending command as after reset, every buffer
undefined (R190, R191). The parameters, and the host's and the scheduler's plans, stay. -/
def State.resetInput (s : State) : State :=
  { State.resetWith s.params with draws := s.draws + 1, host := s.host, turns := s.turns }

/-- A command as it stands right after its acceptance, the core's step the next one: what
`withFetchWord` sets (log 4). -/
def State.placeCommand (s : State) (w : Word) : State := { s.accept w with turns := [] }

end Sys2Proof.Machine
end

