-- ==== Sys2Proof/Machine/Operands.lean ====
section
/-! DEFINITION. How a command reads its operands (00_scope.md R15), and the functions of operands that
several commands share: checks (40_cipher.md R101, R102; 60_exceptions.md R170), key cycling (R100),
bit expansion and packing (41_bitplane.md R120), the frame (42_framing.md R140). -/

namespace Sys2Proof.Machine

/-! ## Reading operands -/

/-- `MemRead(b, i)` of the command performed in state `s` (R9): the stored value, or the command's one
draw for an element that was never written (R15, R45). -/
def State.operand (s : State) (b : Buf) (i : Nat) : Byte :=
  (s.cell b i).getD (drawElement s.draws b i)

/-- `reg(SAMPLE_COUNT) >> 3`, the advisory capacity that `CAPACITY` reads and `CapacityExceeded`
reports (R33, R161). -/
def State.capacity (s : State) : Word := s.sampleCount >>> 3

/-- The key byte combined with position `i` of a sequence: `MemRead(KEY_MEM, i mod k)` (R100). -/
def State.keyByte (s : State) (i : Nat) : Byte := s.operand .key (i % s.keyLen.toNat)

/-! ## Checks -/

/-- `check_key()` (R101). -/
def keyError (s : State) : Option Raise :=
  if s.keyLen.toNat = 0 then some ⟨.emptyKey, 0x00000000#32⟩
  else if s.params.keyMax < s.keyLen.toNat then
    some ⟨.limitExceeded, BitVec.ofNat 32 s.keyLen.toNat⟩
  else none

/-- `if v > bound: raise LimitExceeded(v)` (R170). -/
def limitError (v bound : Nat) : Option Raise :=
  if bound < v then some ⟨.limitExceeded, BitVec.ofNat 32 v⟩ else none

/-- `if S > SAMPLE_MAX: raise LimitExceeded(S)` (R170). -/
def sampleLimitError (s : State) : Option Raise :=
  limitError s.sampleCount.toNat s.params.sampleMax

/-- `if needed > S: raise CapacityExceeded(S >> 3)` (R122, R123, R141, R145). -/
def capacityError (s : State) (needed : Nat) : Option Raise :=
  if s.sampleCount.toNat < needed then some ⟨.capacityExceeded, s.capacity⟩ else none

/-- The least `i < n` whose element of `b` is `0xFF`, the one unsupported byte (R102). -/
def firstUnsupported (s : State) (b : Buf) (n : Nat) : Option Nat :=
  (List.range n).find? (fun i => s.operand b i == 0xFF#8)

/-- `check_range(n, k)`: every message byte, then every key byte; bit 16 of the detail says which
sequence, bits [15:0] the index (R102, R161). -/
def rangeError (s : State) (n k : Nat) : Option Raise :=
  match firstUnsupported s .msg n with
  | some i => some ⟨.unsupportedCharacter, BitVec.ofNat 32 i⟩
  | none =>
    match firstUnsupported s .key k with
    | some j => some ⟨.unsupportedCharacter, 0x00010000#32 ||| BitVec.ofNat 32 j⟩
    | none => none

/-- `if n > 255: raise MessageTooLong(n)` (R141, R161). -/
def messageLengthError (n : Nat) : Option Raise :=
  if 255 < n then some ⟨.messageTooLong, BitVec.ofNat 32 n⟩ else none

/-- The advisory check of `ENCODE`: `if n > (S >> 3): raise CapacityExceeded(S >> 3)` (R142). -/
def advisoryError (s : State) (n : Nat) : Option Raise :=
  if s.capacity.toNat < n then some ⟨.capacityExceeded, s.capacity⟩ else none

/-! ## Bits of bytes -/

/-- `bit(v, j) = v[7 - j]`: bit `j` of `v` in MSB-first order, as a byte 0 or 1 (R120). -/
def msbBit (v : Byte) (j : Nat) : Byte := (v >>> (7 - j)) &&& 0x01#8

/-- `pack(b 0, ..., b 7) = b0·2^7 + ... + b7·2^0` of eight bits, each given as a byte whose bit 0
counts (R120). -/
def pack (b : Nat → Byte) : Byte :=
  ((b 0 &&& 0x01#8) <<< 7) ||| ((b 1 &&& 0x01#8) <<< 6) ||| ((b 2 &&& 0x01#8) <<< 5) |||
  ((b 3 &&& 0x01#8) <<< 4) ||| ((b 4 &&& 0x01#8) <<< 3) ||| ((b 5 &&& 0x01#8) <<< 2) |||
  ((b 6 &&& 0x01#8) <<< 1) ||| (b 7 &&& 0x01#8)

/-- Replace bit 0 of a sample: `(v AND 0xFE) OR bit` (R122, R141). -/
def replaceLowBit (v bit : Byte) : Byte := (v &&& 0xFE#8) ||| bit

/-- Byte `i` spelt by the low bits of `PIX_SRC[8i .. 8i+7]`, MSB first (R63, R123, R145). -/
def State.sampleByte (s : State) (i : Nat) : Byte :=
  pack (fun j => s.operand .pixSrc (8 * i + j))

/-- Bit `p` of the stream that the bytes `v 0, v 1, ...` make: bit `p mod 8`, MSB first, of byte
`p div 8` (R63). -/
def streamBit (v : Nat → Byte) (p : Nat) : Byte := msbBit (v (p / 8)) (p % 8)

/-! ## The frame -/

/-- The frame `[n] ++ c` with `c i = m i XOR K (i mod k)` (R140). -/
def State.framedByte (s : State) (n : Nat) : Nat → Byte
  | 0 => BitVec.ofNat 8 n
  | i + 1 => s.operand .msg i ^^^ s.keyByte i

end Sys2Proof.Machine
end

