-- ==== Sys2Proof/Machine/Bitplane.lean ====
section
/-! DEFINITION. The bit-plane commands (41_bitplane.md). -/

namespace Sys2Proof.Machine

/-- `B2B` (R121): the bit stream of `DATA_MEM[0 .. n-1]` into `BITS_MEM`, and `BITS_LEN <- 8 n`. -/
def execB2b (s : State) : Host.Outcome State Fault Refusal :=
  conclude s
    [ limitError s.dataLen.toNat s.params.bufBytes ]
    ((s.setBlock .bits (8 * s.dataLen.toNat) (streamBit (s.operand .data))).setBitsLen
      (BitVec.ofNat 16 (8 * s.dataLen.toNat)))

/-- `EMBED` (R122): `PIX_SRC[0 .. S-1]` into `PIX_DST`, bit 0 of the first `BITS_LEN` samples replaced
by the bits of `BITS_MEM`. -/
def execEmbed (s : State) : Host.Outcome State Fault Refusal :=
  conclude s
    [ limitError s.bitsLen.toNat (8 * s.params.bufBytes),
      sampleLimitError s,
      capacityError s s.bitsLen.toNat ]
    (s.setBlock .pixDst s.sampleCount.toNat (fun i =>
      if i < s.bitsLen.toNat then replaceLowBit (s.operand .pixSrc i) (s.operand .bits i)
      else s.operand .pixSrc i))

/-- `EXTRACT c` (R123): the bytes spelt by the low bits of `PIX_SRC[0 .. 8c-1]` into `DATA_MEM`, and
`DATA_LEN <- c`. -/
def execExtract (c : Nat) (s : State) : Host.Outcome State Fault Refusal :=
  conclude s
    [ limitError c s.params.bufBytes,
      sampleLimitError s,
      capacityError s (8 * c) ]
    ((s.setBlock .data c s.sampleByte).setDataLen (BitVec.ofNat 16 c))

end Sys2Proof.Machine
end

