-- ==== Sys2Proof/Machine/Cipher.lean ====
section
/-! DEFINITION. The keystream cipher commands (40_cipher.md). -/

namespace Sys2Proof.Machine

/-- `LOCK` (R103): `DATA_MEM[i] <- MSG_MEM[i] XOR KEY_MEM[i mod k]` for `i < MSG_LEN`, and
`DATA_LEN <- MSG_LEN`. -/
def execLock (s : State) : Host.Outcome State Fault Refusal :=
  conclude s
    [ keyError s,
      limitError s.msgLen.toNat s.params.bufBytes,
      rangeError s s.msgLen.toNat s.keyLen.toNat ]
    ((s.setBlock .data s.msgLen.toNat (fun i => s.operand .msg i ^^^ s.keyByte i)).setDataLen
      s.msgLen)

/-- `UNLOCK` (R105): `MSG_MEM[i] <- DATA_MEM[i] XOR KEY_MEM[i mod k]` for `i < DATA_LEN`, and
`MSG_LEN <- DATA_LEN`; no range check (R106). -/
def execUnlock (s : State) : Host.Outcome State Fault Refusal :=
  conclude s
    [ keyError s,
      limitError s.dataLen.toNat s.params.bufBytes ]
    ((s.setBlock .msg s.dataLen.toNat (fun i => s.operand .data i ^^^ s.keyByte i)).setMsgLen
      s.dataLen)

end Sys2Proof.Machine
end

