-- ==== Sys2Proof/Machine/Framing.lean ====
section
/-! DEFINITION. The framing commands (42_framing.md). -/

namespace Sys2Proof.Machine

/-- `ENCODE` (R141): `PIX_SRC[0 .. S-1]` into `PIX_DST`, bit 0 of the first `8 (n + 1)` samples
replaced by the bit stream of the frame of the message. -/
def execEncode (s : State) : Host.Outcome State Fault Refusal :=
  conclude s
    [ keyError s,
      messageLengthError s.msgLen.toNat,
      rangeError s s.msgLen.toNat s.keyLen.toNat,
      sampleLimitError s,
      advisoryError s s.msgLen.toNat,
      capacityError s (8 * (s.msgLen.toNat + 1)) ]
    (s.setBlock .pixDst s.sampleCount.toNat (fun i =>
      if i < 8 * (s.msgLen.toNat + 1) then
        replaceLowBit (s.operand .pixSrc i) (streamBit (s.framedByte s.msgLen.toNat) i)
      else s.operand .pixSrc i))

/-- `DECODE` (R145): the length byte `L` from samples 0 to 7, then `L` cipher bytes, unlocked into
`MSG_MEM`, and `MSG_LEN <- L`. -/
def execDecode (s : State) : Host.Outcome State Fault Refusal :=
  conclude s
    [ sampleLimitError s,
      capacityError s 8,
      capacityError s (8 * ((s.sampleByte 0).toNat + 1)),
      keyError s ]
    ((s.setBlock .msg (s.sampleByte 0).toNat
      (fun i => s.sampleByte (i + 1) ^^^ s.keyByte i)).setMsgLen ((s.sampleByte 0).setWidth 16))

end Sys2Proof.Machine
end

