-- ==== Sys2Proof/Machine/Dispatch.lean ====
section
/-! DEFINITION. One arm per command: the core's step on a legal word (30_encoding.md R86). -/

namespace Sys2Proof.Machine

/-- The command `i` performed in state `s` (R86). -/
def exec (i : Instr) (s : State) : Host.Outcome State Fault Refusal :=
  match i with
  | .lock => Sys2Proof.Machine.execLock s
  | .unlock => Sys2Proof.Machine.execUnlock s
  | .b2b => Sys2Proof.Machine.execB2b s
  | .embed => Sys2Proof.Machine.execEmbed s
  | .extract c => Sys2Proof.Machine.execExtract c s
  | .encode => Sys2Proof.Machine.execEncode s
  | .decode => Sys2Proof.Machine.execDecode s

end Sys2Proof.Machine
end

