-- ==== Sys2Proof/Machine/Bus.lean ====
section
/-! DEFINITION. Host accesses to the window: the map (20_memory.md R52), admission (R54), reads and
writes of registers and buffers (10_state.md §2, R56, R57), and the hazards of a pending command
(70_reset_and_hazards.md R194 to R196). -/

namespace Sys2Proof

/-- The window base of a buffer's region (R52). -/
def Buf.base : Buf → Nat
  | .key => 0x1000
  | .msg => 0x2000
  | .data => 0x3000
  | .bits => 0x4000
  | .pixSrc => 0x01000000
  | .pixDst => 0x02000000

end Sys2Proof

namespace Sys2Proof.Machine

/-! ## The window map -/

/-- The regions of R52. -/
inductive Region where
  | registers
  | buffer (b : Buf)
  | unmapped
deriving DecidableEq, Repr

/-- The region an offset lies in (the table of R52). -/
def regionOf (a : Nat) : Region :=
  if a < 0x1000 then .registers
  else if a < 0x2000 then .buffer .key
  else if a < 0x3000 then .buffer .msg
  else if a < 0x4000 then .buffer .data
  else if a < 0xC000 then .buffer .bits
  else if a < 0x01000000 then .unmapped
  else if a < 0x02000000 then .buffer .pixSrc
  else if a < 0x03000000 then .buffer .pixDst
  else .unmapped

/-- The width in bytes (R54). -/
def Width.bytes : Width → Nat
  | .byte => 1
  | .half => 2
  | .word => 4

/-- Whether the core admits an access; if not, the kind of bus error. The conditions stand in the
order of R54, and the first that fails names the kind (R54, R55, R58; log 7). -/
def admission (p : Params) (off : Word) (width : Width) : Option AccessFault :=
  if off.toNat % width.bytes ≠ 0 then some .misaligned
  else
    match regionOf off.toNat with
    | .unmapped => some .unmapped
    | .buffer b =>
      if off.toNat - b.base + width.bytes ≤ b.size p then none else some .outsideBuffer
    | .registers => if width = .word then none else some .registerWidth

/-- The window offset a host bus address names: `BASE + a` names offset `a`, `0 ≤ a < 2^32`; any other
address is not the core's (R50, R51, log 13). -/
def busOffset (p : Params) (addr : Nat) : Option Word :=
  if p.base ≤ addr ∧ addr < p.base + 2 ^ 32 then some (BitVec.ofNat 32 (addr - p.base)) else none

/-! ## Byte lanes -/

/-- Byte lane `j` of a transferred value: bits `[8j+7 : 8j]` (R57). -/
def lane (v : Word) (j : Nat) : Byte := v.extractLsb' (8 * j) 8

/-- The value whose lanes `0 .. n-1` are `f 0 .. f (n-1)` and whose other lanes are 0 (R57). -/
def joinLanes : Nat → (Nat → Byte) → Word
  | 0, _ => 0x00000000#32
  | n + 1, f => joinLanes n f ||| ((f n).setWidth 32 <<< (8 * n))

/-- Write lanes `0 .. n-1` of `v` to the elements `i .. i+n-1` of a buffer (R56, R57, R59). -/
def State.setLanes (s : State) (b : Buf) (i : Nat) (v : Word) : Nat → State
  | 0 => s
  | n + 1 => (s.setLanes b i v n).setCell b (i + n) (lane v n)

/-! ## Registers -/

/-- The implemented registers (the table of R23). -/
inductive Reg where
  | id | cmd | status | errInfo | keyLen | msgLen | dataLen | bitsLen | sampleCount | capacity
  | paramBuf | paramKey | paramSamples
deriving DecidableEq, Repr

/-- The offset of a register (R23). -/
def Reg.offset : Reg → Nat
  | .id => 0x000
  | .cmd => 0x004
  | .status => 0x008
  | .errInfo => 0x00C
  | .keyLen => 0x010
  | .msgLen => 0x014
  | .dataLen => 0x018
  | .bitsLen => 0x01C
  | .sampleCount => 0x020
  | .capacity => 0x024
  | .paramBuf => 0x028
  | .paramKey => 0x02C
  | .paramSamples => 0x030

/-- The registers in the order of their offsets (R23). -/
def registerMap : List Reg :=
  [.id, .cmd, .status, .errInfo, .keyLen, .msgLen, .dataLen, .bitsLen, .sampleCount, .capacity,
   .paramBuf, .paramKey, .paramSamples]

/-- The register at an offset of the register page; `none` is a reserved offset (R35). -/
def regAt (a : Nat) : Option Reg := registerMap.find? (fun r => r.offset == a)

/-- The stored value of a register (R22 to R34). -/
def State.regValue (s : State) : Reg → Word
  | .id => Config.idValue
  | .cmd => s.cmd
  | .status => s.status.word
  | .errInfo => s.errInfo
  | .keyLen => s.keyLen.setWidth 32
  | .msgLen => s.msgLen.setWidth 32
  | .dataLen => s.dataLen.setWidth 32
  | .bitsLen => s.bitsLen.setWidth 32
  | .sampleCount => s.sampleCount
  | .capacity => s.capacity
  | .paramBuf => BitVec.ofNat 32 s.params.bufBytes
  | .paramKey => BitVec.ofNat 32 s.params.keyMax
  | .paramSamples => BitVec.ofNat 32 s.params.sampleMax

/-- A host write to a register while no command is pending: `CMD` issues a command (R24, R85),
`STATUS` clears `OVR` (R26), a length register keeps bits [15:0] (R28), a read-only register ignores
the write (R23). -/
def State.writeReg (s : State) (r : Reg) (v : Word) : State :=
  match r with
  | .cmd => s.accept v
  | .status => { s with status := s.status.written v }
  | .keyLen => { s with keyLen := v.setWidth 16 }
  | .msgLen => { s with msgLen := v.setWidth 16 }
  | .dataLen => { s with dataLen := v.setWidth 16 }
  | .bitsLen => { s with bitsLen := v.setWidth 16 }
  | .sampleCount => { s with sampleCount := v }
  | .id => s
  | .errInfo => s
  | .capacity => s
  | .paramBuf => s
  | .paramKey => s
  | .paramSamples => s

/-! ## The write set of the pending command -/

end Sys2Proof.Machine

namespace Sys2Proof

/-- The buffer a command writes (the write sets of R195). -/
def Instr.destBuf : Instr → Buf
  | .lock => .data
  | .unlock => .msg
  | .b2b => .bits
  | .embed => .pixDst
  | .extract _ => .data
  | .encode => .pixDst
  | .decode => .msg

/-- The length register a command writes, if any (the write sets of R195). -/
def Instr.destReg : Instr → Option Machine.Reg
  | .lock => some .dataLen
  | .unlock => some .msgLen
  | .b2b => some .bitsLen
  | .embed => none
  | .extract _ => some .dataLen
  | .encode => none
  | .decode => some .msgLen

end Sys2Proof

namespace Sys2Proof.Machine

/-- The pending command, where its word is legal (R40, R87). -/
def State.pendingInstr (s : State) : Option Instr :=
  s.pending.bind (fun w => (decode w).instr?)

/-- Buffer `b` is in the pending command's write set (R195). -/
def State.bufPending (s : State) (b : Buf) : Bool :=
  match s.pendingInstr with
  | some i => i.destBuf == b
  | none => false

/-- Register `r` is in the pending command's write set (R195). -/
def State.regPending (s : State) (r : Reg) : Bool :=
  match s.pendingInstr with
  | some i => i.destReg == some r
  | none => false

/-! ## Reads and writes -/

/-- What a host read of a register returns: a draw of its 16 implemented bits where the pending
command is about to write it (R195, log 3), else its value (R196). -/
def State.hostReg (s : State) (r : Reg) : Word :=
  if s.regPending r then (Config.freeHalf s.draws).setWidth 32 else s.regValue r

/-- What a host read of one buffer element returns: a draw where the pending command is about to write
the buffer (R195) or the element was never written (R45), else the element (R196). -/
def State.hostElement (s : State) (b : Buf) (i : Nat) : Byte :=
  if s.bufPending b then drawElement s.draws b i else s.operand b i

/-- The data an admitted read returns, zero above its width (R35, R56, R57, R59). -/
def State.busRead (s : State) (off : Word) (width : Width) : Word :=
  match regionOf off.toNat with
  | .registers =>
    match regAt off.toNat with
    | some r => s.hostReg r
    | none => 0x00000000#32
  | .buffer b => joinLanes width.bytes (fun j => s.hostElement b (off.toNat - b.base + j))
  | .unmapped => 0x00000000#32

/-- The effect of an admitted write while no command is pending (R23 to R35, R56, R57, R59). -/
def State.idleWrite (s : State) (off : Word) (width : Width) (v : Word) : State :=
  match regionOf off.toNat with
  | .registers =>
    match regAt off.toNat with
    | some r => s.writeReg r v
    | none => s
  | .buffer b => s.setLanes b (off.toNat - b.base) v width.bytes
  | .unmapped => s

/-- The effect of an admitted write while a command is pending (the pseudocode of R194). -/
def State.pendingWrite (s : State) (off : Word) (v : Word) : State :=
  if off.toNat = Reg.status.offset then { s with status := s.status.written v }
  else { s with status := s.status.overrun }

/-- The effect of an admitted write (R26, R85, R194). -/
def State.busWrite (s : State) (off : Word) (width : Width) (v : Word) : State :=
  match s.pending with
  | none => s.idleWrite off width v
  | some _ => s.pendingWrite off v

/-- A read's data goes to the host, and the read has used up one draw (R45, R62). -/
def State.replied (s : State) (v : Word) : State := { s with reply := some v, draws := s.draws + 1 }

/-- A write returns no data. -/
def State.acknowledged (s : State) : State := { s with reply := none }

/-- One host read: a bus error (R58), or the data as the reply; no architectural state changes (R62). -/
def hostRead (off : Word) (width : Width) (s : State) : Host.Outcome State Fault Refusal :=
  match admission s.params off width with
  | some kind => .fault (.hostAccessFault off width kind)
  | none => .next (s.replied (s.busRead off width))

/-- One host write: a bus error (R58), or its effect. -/
def hostWrite (off : Word) (width : Width) (v : Word) (s : State) :
    Host.Outcome State Fault Refusal :=
  match admission s.params off width with
  | some kind => .fault (.hostAccessFault off width kind)
  | none => .next (s.busWrite off width v).acknowledged

end Sys2Proof.Machine
end

