-- ==== Sys2Proof/Machine/HostAgent.lean ====
section
/-! DEFINITION. The host's step (00_scope.md R3, 20_memory.md R61) and the host-program notation with
its pseudo-instructions (30_encoding.md R88, R89). -/

namespace Sys2Proof.Machine

/-- The offset of a register as the host writes it (R88: `STATUS` for `0x008`). -/
def regOff (r : Reg) : Word := BitVec.ofNat 32 r.offset

/-- The offset of buffer element `BUF[i]` (R52, R88). -/
def elemOff (b : Buf) (i : Nat) : Word := BitVec.ofNat 32 (b.base + i)

/-- The host's next step, or none where its program has ended: the core is then idle or waiting and
keeps all state (R178, log 6). -/
def hostTurn (s : State) : Host.Outcome State Fault Refusal :=
  match s.host with
  | [] => .next s
  | .read off width :: rest => hostRead off width { s with host := rest }
  | .write off width v :: rest => hostWrite off width v { s with host := rest }
  | .wait :: rest =>
    -- `L: rd32 STATUS`, and `L` again while bit 0 of the value read is 1
    if (s.busRead (regOff .status) .word).getLsbD 0 then
      hostRead (regOff .status) .word { s with host := .wait :: rest }
    else hostRead (regOff .status) .word { s with host := rest }
  | .copySample i :: rest =>
    -- the value read is what the write that is now due carries
    hostRead (elemOff .pixDst i) .byte
      { s with
        host := .write (elemOff .pixSrc i) .byte (s.busRead (elemOff .pixDst i) .byte) :: rest }
  | .reset :: rest => .next { s with host := rest }.resetInput

/-! ## The pseudo-instructions of R89 -/

namespace Program

/-- `wr32 CMD, w`. -/
def cmdWord (w : Word) : List HostStep := [.write (regOff .cmd) .word w]

/-- `cmd M`: write the command's word to `CMD`. -/
def cmd (i : Instr) : List HostStep := cmdWord (encode i)

/-- `wait`: poll `STATUS` until `BUSY` reads 0. -/
def wait : List HostStep := [.wait]

/-- `run M`: issue and wait. -/
def run (i : Instr) : List HostStep := cmd i ++ wait

/-- `wrbytes BUF[i], b0, b1, ..., bm`: one `wr8` for each byte. -/
def wrbytes (b : Buf) : Nat → List Byte → List HostStep
  | _, [] => []
  | i, v :: vs => .write (elemOff b i) .byte (v.setWidth 32) :: wrbytes b (i + 1) vs

/-- `fill BUF[i], n, b`: `n` times `wr8`. -/
def fill (b : Buf) (i n : Nat) (v : Byte) : List HostStep := wrbytes b i (List.replicate n v)

/-- `copy n`: copy samples `0 .. n-1` of `PIX_DST` to `PIX_SRC`. -/
def copy (n : Nat) : List HostStep := (List.range n).map HostStep.copySample

/-- `clrovr`: write 1 to bit 3 of `STATUS`. -/
def clrovr : List HostStep := [.write (regOff .status) .word 0x00000008#32]

end Program

end Sys2Proof.Machine
end

