-- ==== Sys2Proof/Machine/CoreAgent.lean ====
section
/-! DEFINITION. The core's step (30_encoding.md R86) and whose step comes next (70_reset_and_hazards.md
R197, R198). -/

namespace Sys2Proof.Machine

/-- The core's step while `w` is pending: decode the word and perform the command, or complete with
`IllegalCommand` (R86, R169). -/
def coreTurn (w : Word) (s : State) : Host.Outcome State Fault Refusal :=
  match decode w with
  | .legal i => exec i s
  | .illegal _ => execIllegal w s

/-- The agent whose step comes next while a command is pending: the host where its program has not
ended and the schedule names it, else the core (log 5). -/
def State.mover (s : State) : Agent :=
  match s.host, s.turns with
  | _ :: _, .host :: _ => .host
  | _, _ => .core

/-- The schedule's next choice is used up. -/
def State.takeTurn (s : State) : State := { s with turns := s.turns.tail }

/-- One step of the machine: while a command is pending the scheduled agent moves, else the host. -/
def machineTurn (s : State) : Host.Outcome State Fault Refusal :=
  match s.pending with
  | none => hostTurn s
  | some w =>
    match s.mover with
    | .core => coreTurn w s.takeTurn
    | .host => hostTurn s.takeTurn

end Sys2Proof.Machine
end

