-- ==== Sys2Proof/Machine/Step.lean ====
section
/-! DEFINITION. One step of the machine, and how one command word is put where the next step performs
it. -/

namespace Sys2Proof.Machine

/-- One step: the core performs the pending command, or the host makes its next access (R3, R86). -/
def step (s : State) : Host.Outcome State Fault Refusal := machineTurn s

/-- `s` with the `nbits`-bit word `w` accepted and the core's step next (log 4). -/
def State.withFetchWord (s : State) (nbits w : Nat) : State :=
  s.placeCommand (BitVec.ofNat 32 (w % 2 ^ nbits))

end Sys2Proof.Machine
end

