-- ==== Sys2Proof/Safety.lean ====
section
/-! DEFINITION. The terms in which claims are stated: the invariant of the machine, the host's duties
(60_exceptions.md R179, 70_reset_and_hazards.md R192, R193), and the ways a command can end (R10, R164). -/

namespace Sys2Proof.Machine

/-! ## The invariant -/

/-- Every listed index is an element of the buffer. -/
abbrev Memory.Within {w : Nat} (m : Memory w) (n : Nat) : Prop := ∀ c ∈ m, c.1 < n

/-- Every buffer is in canonical form and lists only elements it has (R36). -/
abbrev State.MemoryOk (s : State) : Prop :=
  (Memory.wf s.keyMem ∧ Memory.wf s.msgMem ∧ Memory.wf s.dataMem ∧ Memory.wf s.bitsMem ∧
    Memory.wf s.pixSrc ∧ Memory.wf s.pixDst) ∧
  (Memory.Within s.keyMem s.params.keyMax ∧ Memory.Within s.msgMem s.params.bufBytes ∧
    Memory.Within s.dataMem s.params.bufBytes ∧ Memory.Within s.bitsMem (8 * s.params.bufBytes) ∧
    Memory.Within s.pixSrc s.params.sampleMax ∧ Memory.Within s.pixDst s.params.sampleMax)

/-- What `STATUS`, `ERR_INFO`, `CMD` and the pending command always agree on: `BUSY` exactly while a
command is pending (R40), `BUSY` and `DONE` never both, `ERR` exactly when `ERRCODE` is not 0 (R25),
codes 7 to 15 never produced (R160), no error and no detail before a completion or after a
successful one (R27, R85), `CMD` the pending word (R40). -/
abbrev State.StatusOk (s : State) : Prop :=
  s.status.busy = s.pending.isSome ∧
  ¬ (s.status.busy = true ∧ s.status.done = true) ∧
  s.status.err = (s.status.errcode != 0#4) ∧
  s.status.errcode.toNat ≤ 6 ∧
  (s.status.done = false → s.status.errcode = 0#4) ∧
  (s.status.errcode = 0#4 → s.errInfo = 0#32) ∧
  (s.pending = none ∨ s.pending = some s.cmd)

/-- The invariant of the machine: legal parameters (R6) and the two conditions above. -/
abbrev State.Inv (s : State) : Prop := s.params.Legal ∧ s.MemoryOk ∧ s.StatusOk

/-! ## The host's duties -/

/-- Elements `0 .. n-1` of the buffer have been written since reset (R45). -/
abbrev State.Written (s : State) (b : Buf) (n : Nat) : Prop := ∀ i < n, (s.cell b i).isSome = true

/-- The host wrote every element the command reads (R192 step 2, R45). -/
def State.OperandsWritten (s : State) : Instr → Prop
  | .lock => s.Written .key (min s.keyLen.toNat s.params.keyMax) ∧
      s.Written .msg (min s.msgLen.toNat s.params.bufBytes)
  | .unlock => s.Written .key (min s.keyLen.toNat s.params.keyMax) ∧
      s.Written .data (min s.dataLen.toNat s.params.bufBytes)
  | .b2b => s.Written .data (min s.dataLen.toNat s.params.bufBytes)
  | .embed => s.Written .bits (min s.bitsLen.toNat (8 * s.params.bufBytes)) ∧
      s.Written .pixSrc (min s.sampleCount.toNat s.params.sampleMax)
  | .extract c => s.Written .pixSrc (min (8 * c) s.params.sampleMax)
  | .encode => s.Written .key (min s.keyLen.toNat s.params.keyMax) ∧
      s.Written .msg (min s.msgLen.toNat 255) ∧
      s.Written .pixSrc (min s.sampleCount.toNat s.params.sampleMax)
  | .decode => s.Written .key (min s.keyLen.toNat s.params.keyMax) ∧
      s.Written .pixSrc (min s.sampleCount.toNat s.params.sampleMax)

/-- While a command is pending, the host writes nothing but `STATUS` (R179, R193). -/
def HostStep.obeys (s : State) : HostStep → Bool
  | .write off _ _ => s.pending.isNone || off == regOff .status
  | .read _ _ => true
  | .wait => true
  | .copySample _ => true
  | .reset => true

/-! ## How a command ends -/

/-- `t` is `s` after a successful completion, as far as `STATUS` and `ERR_INFO` say (R164). -/
abbrev Succeeded (s t : State) : Prop :=
  t.status = { busy := false, done := true, err := false, ovr := s.status.ovr, errcode := 0#4 } ∧
  t.errInfo = 0#32 ∧ t.pending = none

/-- `t` is `s` after an error completion with this error and detail: nothing else has changed (R10,
R164), but that the draws of the command are used up. -/
abbrev FailedWith (s t : State) (e : ErrorKind) (info : Word) : Prop :=
  t = { s with
    status := { busy := false, done := true, err := true, ovr := s.status.ovr, errcode := e.code },
    errInfo := info, pending := none, draws := s.draws + 1 }

/-- Every element of every buffer is as before, but for the first `n` of buffer `b`. -/
abbrev KeptOutside (s t : State) (b : Buf) (n : Nat) : Prop :=
  ∀ (b' : Buf) (i : Nat), ¬ (b' = b ∧ i < n) → t.cell b' i = s.cell b' i

/-- The registers no command writes are as before (R24, R26, R29, R33, R34), and so are the host's
plan, its last reply and the schedule. -/
abbrev FixedKept (s t : State) : Prop :=
  t.params = s.params ∧ t.cmd = s.cmd ∧ t.keyLen = s.keyLen ∧ t.sampleCount = s.sampleCount ∧
  t.status.ovr = s.status.ovr ∧ t.host = s.host ∧ t.reply = s.reply ∧ t.turns = s.turns

end Sys2Proof.Machine
end

