-- ==== Sys2Proof/Certificates/Slice0/Obligations.lean ====
section
/-! DEFINITION. The statements for the provers. "R<n>" is a numbered rule of `spec/`. -/

open Sys2Proof Sys2Proof.Machine

/-! ## Command words (30_encoding.md) -/

/-- Words written out from R81 and from the vectors of 95_test_vectors.md §2.8 decode as they say. -/
def Obligations.WordsOfTheSpecDecodeAsItSays : Prop :=
  decode 0b00000000000000000000000000000001#32 = .legal .lock ∧
  decode 0b00000000000000000000000000000100#32 = .legal .embed ∧
  decode 0b00000000000000110000000000000101#32 = .legal (.extract 3) ∧
  decode 0b11111111111111110000000000000101#32 = .legal (.extract 65535) ∧
  decode 0b00000000000000000000000000000111#32 = .legal .decode ∧
  decode 0x00000105#32 = .illegal .reservedField ∧
  decode 0x00000000#32 = .illegal .reservedOpcode ∧
  decode 0x80000006#32 = .illegal .countNotZero

/-- Every command that has a word decodes from it, with its count (R80, R82, R87). -/
def Obligations.EncodedCommandDecodesToItself : Prop :=
  ∀ i : Instr, i.wellFormed = true → decode (encode i) = .legal i

/-- A command decodes from its own word alone: no bit of a word is ignored (R81, R83, R87). -/
def Obligations.OnlyItsOwnWordDecodesToACommand : Prop :=
  ∀ (w : Word) (i : Instr), decode w = .legal i → i.wellFormed = true ∧ encode i = w

/-- The decoder against the match and mask table: a legal word matches the one row of its command, an
illegal word matches none (R81). -/
def Obligations.LegalWordsMatchExactlyOneRow : Prop :=
  ∀ w : Word, (opcodeRows.filter (fun r => r.covers w)).map (fun r => r.mnemonic) =
    match decode w with
    | .legal i => [i.mnemonic]
    | .illegal _ => []

/-- A command is exactly four little-endian bytes; no other length is a command (R57, R80, R84). That
bytes of another length decode, to the rejection `notOneWord`, is the model's choice (log 12): in the
spec a narrower write to `CMD` is a bus error (R55, R84) and never reaches the decoder. -/
def Obligations.CommandIsExactlyFourBytes : Prop :=
  (∀ w : Word, decodeBytes (bytesOfWord w) = decode w) ∧
  ∀ bytes : List Byte, bytes.length ≠ 4 → decodeBytes bytes = .illegal .notOneWord

/-- Which words are illegal, that such a word is accepted like any other, and that its command
completes with `IllegalCommand` and the word, and writes nothing else (R83, R169). -/
def Obligations.IllegalWordsCompleteWithIllegalCommand : Prop :=
  ∀ w : Word,
    ((∃ why, decode w = .illegal why) ↔
      (w.extractLsb' 4 12 ≠ 0#12 ∨ w.extractLsb' 0 4 = 0#4 ∨ 8 ≤ (w.extractLsb' 0 4).toNat ∨
        (w.extractLsb' 0 4 ≠ 5#4 ∧ w.extractLsb' 16 16 ≠ 0#16))) ∧
    ∀ s : State, (∃ why, decode w = .illegal why) →
      (s.pending = none →
        ∃ t, hostWrite (regOff .cmd) .word w s = .next t ∧ t.pending = some w ∧ t.cmd = w ∧
          t.status.busy = true) ∧
      (s.pending = some w → (s.host = [] ∨ s.turns.head? ≠ some .host) →
        ∃ t, step s = .next t ∧ FailedWith { s with turns := s.turns.tail } t .illegalCommand w)

/-! ## Issue and completion (30_encoding.md §3, 60_exceptions.md §2) -/

/-- A 32-bit write to `CMD` while no command is pending accepts the word, legal or not; while one is
pending it is dropped and sets `OVR` (R85). -/
def Obligations.CmdWriteIsAcceptedWhenIdle : Prop :=
  ∀ (s : State) (w : Word),
    (s.pending = none → hostWrite (regOff .cmd) .word w s = .next { s with
      cmd := w, pending := some w, errInfo := 0#32, reply := none,
      status := { busy := true, done := false, err := false, ovr := s.status.ovr,
                  errcode := 0#4 } }) ∧
    (s.pending ≠ none → hostWrite (regOff .cmd) .word w s = .next { s with
      reply := none, status := { s.status with ovr := true } })

/-- A step at which the core moves performs the command that the pending word decodes to; the step
uses up one scheduled turn and does nothing else of its own. A word placed by `withFetchWord` is
performed by the very next step (R86). -/
def Obligations.StepPerformsThePendingCommand : Prop :=
  (∀ (s : State) (w : Word) (i : Instr), s.pending = some w → decode w = .legal i →
    (s.host = [] ∨ s.turns.head? ≠ some .host) →
    step s = exec i { s with turns := s.turns.tail }) ∧
  ∀ (s : State) (w : Nat) (i : Instr), w < 2 ^ 32 → decode (BitVec.ofNat 32 w) = .legal i →
    step (s.withFetchWord 32 w) = exec i (s.withFetchWord 32 w) ∧
    (s.withFetchWord 32 w).pending = some (BitVec.ofNat 32 w) ∧
    ∀ (b : Buf) (j : Nat), (s.withFetchWord 32 w).cell b j = s.cell b j

/-- Every command, on every state, completes: not busy, done, `ERR` and `ERR_INFO` as the code says,
nothing pending; `OVR`, `CMD`, `KEY_LEN`, `SAMPLE_COUNT` and the parameters unchanged (R164). -/
def Obligations.EveryCommandCompletes : Prop :=
  ∀ (i : Instr) (s : State), ∃ t, exec i s = .next t ∧
    t.pending = none ∧ t.status.busy = false ∧ t.status.done = true ∧
    t.status.err = (t.status.errcode != 0#4) ∧ t.status.errcode.toNat ≤ 6 ∧
    (t.status.errcode = 0#4 → t.errInfo = 0#32) ∧
    t.draws = s.draws + 1 ∧ FixedKept s t

/-- A command that ends with an error has changed nothing but `STATUS` and `ERR_INFO` (and the pending
command, and the model's count of draws) (R10). -/
def Obligations.ErrorCompletionWritesOnlyStatus : Prop :=
  ∀ (i : Instr) (s t : State), exec i s = .next t → t.status.err = true →
    t = { s with status := t.status, errInfo := t.errInfo, pending := none, draws := s.draws + 1 }

/-- No command writes outside its write set: the one buffer and, if it has one, the one length register
that R195 lists for it; `KEY_LEN` and `SAMPLE_COUNT` are in none (R29, R33). -/
def Obligations.CommandsWriteOnlyTheirWriteSet : Prop :=
  ∀ (i : Instr) (s t : State), exec i s = .next t →
    (∀ b, b ≠ (match i with
        | .lock => Buf.data | .unlock => Buf.msg | .b2b => Buf.bits | .embed => Buf.pixDst
        | .extract _ => Buf.data | .encode => Buf.pixDst | .decode => Buf.msg) →
      ∀ j, t.cell b j = s.cell b j) ∧
    (i ≠ .unlock → i ≠ .decode → t.msgLen = s.msgLen) ∧
    (i ≠ .lock → (∀ c, i ≠ .extract c) → t.dataLen = s.dataLen) ∧
    (i ≠ .b2b → t.bitsLen = s.bitsLen) ∧
    t.keyLen = s.keyLen ∧ t.sampleCount = s.sampleCount

/-- `ENCODE` and `DECODE` keep their intermediate values internal: neither writes `DATA_MEM`,
`BITS_MEM`, `DATA_LEN` or `BITS_LEN`, and neither result depends on them (R149). -/
def Obligations.FramingCommandsKeepIntermediatesInternal : Prop :=
  ∀ (i : Instr) (s t : State), (i = .encode ∨ i = .decode) → exec i s = .next t →
    t.dataMem = s.dataMem ∧ t.bitsMem = s.bitsMem ∧ t.dataLen = s.dataLen ∧
    t.bitsLen = s.bitsLen ∧
    ∀ (d : Memory 8) (b : Memory 1) (dl bl : Half),
      exec i { s with dataMem := d, bitsMem := b, dataLen := dl, bitsLen := bl } =
        .next { t with dataMem := d, bitsMem := b, dataLen := dl, bitsLen := bl }

/-! ## What each command does -/

/-- `LOCK` on operands that pass its checks: each message byte XOR the cyclically indexed key byte
into `DATA_MEM`, the length into `DATA_LEN`, nothing else (R100, R103). -/
def Obligations.LockEncryptsTheMessage : Prop :=
  ∀ s : State,
    1 ≤ s.keyLen.toNat → s.keyLen.toNat ≤ s.params.keyMax →
    s.msgLen.toNat ≤ s.params.bufBytes →
    (∀ i < s.msgLen.toNat, s.operand .msg i ≠ 0xFF#8) →
    (∀ j < s.keyLen.toNat, s.operand .key j ≠ 0xFF#8) →
    ∃ t, exec .lock s = .next t ∧
      (∀ i < s.msgLen.toNat,
        t.cell .data i = some (s.operand .msg i ^^^ s.operand .key (i % s.keyLen.toNat))) ∧
      t.dataLen = s.msgLen ∧ t.msgLen = s.msgLen ∧ t.bitsLen = s.bitsLen ∧
      Succeeded s t ∧ FixedKept s t ∧ KeptOutside s t .data s.msgLen.toNat

/-- `UNLOCK` on operands that pass its checks, whatever its bytes are: no output byte and no key byte
is refused (R100, R105, R106). -/
def Obligations.UnlockDecryptsTheData : Prop :=
  ∀ s : State,
    1 ≤ s.keyLen.toNat → s.keyLen.toNat ≤ s.params.keyMax →
    s.dataLen.toNat ≤ s.params.bufBytes →
    ∃ t, exec .unlock s = .next t ∧
      (∀ i < s.dataLen.toNat,
        t.cell .msg i = some (s.operand .data i ^^^ s.operand .key (i % s.keyLen.toNat))) ∧
      t.msgLen = s.dataLen ∧ t.dataLen = s.dataLen ∧ t.bitsLen = s.bitsLen ∧
      Succeeded s t ∧ FixedKept s t ∧ KeptOutside s t .msg s.dataLen.toNat

/-- `B2B`: bit `8i + j` of the stream is bit `7 - j` of byte `i`; `BITS_LEN` is eight times `DATA_LEN`
(R63, R121). -/
def Obligations.B2bExpandsBytesMsbFirst : Prop :=
  ∀ s : State, s.params.Legal → s.dataLen.toNat ≤ s.params.bufBytes →
    ∃ t, exec .b2b s = .next t ∧
      (∀ i < s.dataLen.toNat, ∀ j < 8,
        t.cell .bits (8 * i + j) =
          some (if (s.operand .data i).getLsbD (7 - j) then 1#8 else 0#8)) ∧
      t.bitsLen.toNat = 8 * s.dataLen.toNat ∧ t.msgLen = s.msgLen ∧ t.dataLen = s.dataLen ∧
      Succeeded s t ∧ FixedKept s t ∧ KeptOutside s t .bits (8 * s.dataLen.toNat)

/-- `EMBED`: `PIX_DST` is a copy of the first `S` samples of `PIX_SRC` in which bit 0 of the first
`BITS_LEN` samples is replaced by the stream; bits 7 to 1 of every sample, and every sample beyond the
stream, are kept (R122, R124). -/
def Obligations.EmbedReplacesOnlyLowBits : Prop :=
  ∀ s : State,
    s.bitsLen.toNat ≤ 8 * s.params.bufBytes → s.sampleCount.toNat ≤ s.params.sampleMax →
    s.bitsLen.toNat ≤ s.sampleCount.toNat →
    ∃ t, exec .embed s = .next t ∧
      (∀ p < s.sampleCount.toNat, ∃ v, t.cell .pixDst p = some v ∧
        (∀ k, 1 ≤ k → v.getLsbD k = (s.operand .pixSrc p).getLsbD k) ∧
        v.getLsbD 0 =
          if p < s.bitsLen.toNat then (s.operand .bits p).getLsbD 0
          else (s.operand .pixSrc p).getLsbD 0) ∧
      t.msgLen = s.msgLen ∧ t.dataLen = s.dataLen ∧ t.bitsLen = s.bitsLen ∧
      Succeeded s t ∧ FixedKept s t ∧ KeptOutside s t .pixDst s.sampleCount.toNat

/-- `EXTRACT c`: byte `i` is spelt, MSB first, by the low bits of samples `8i` to `8i + 7` (R63,
R123). -/
def Obligations.ExtractPacksLowBitsMsbFirst : Prop :=
  ∀ (s : State) (c : Nat), s.params.Legal →
    c ≤ s.params.bufBytes → s.sampleCount.toNat ≤ s.params.sampleMax →
    8 * c ≤ s.sampleCount.toNat →
    ∃ t, exec (.extract c) s = .next t ∧
      (∀ i < c, ∃ v, t.cell .data i = some v ∧
        ∀ j < 8, v.getLsbD (7 - j) = (s.operand .pixSrc (8 * i + j)).getLsbD 0) ∧
      t.dataLen.toNat = c ∧ t.msgLen = s.msgLen ∧ t.bitsLen = s.bitsLen ∧
      Succeeded s t ∧ FixedKept s t ∧ KeptOutside s t .data c

/-- `ENCODE`: the frame `[n] ++ c`, `c i = m i XOR K (i mod k)`, MSB first, in the low bits of the first
`8 (n + 1)` samples of a copy of `PIX_SRC`; all else kept (R140, R141). -/
def Obligations.EncodeEmbedsTheFrame : Prop :=
  ∀ s : State,
    1 ≤ s.keyLen.toNat → s.keyLen.toNat ≤ s.params.keyMax → s.msgLen.toNat ≤ 255 →
    (∀ i < s.msgLen.toNat, s.operand .msg i ≠ 0xFF#8) →
    (∀ j < s.keyLen.toNat, s.operand .key j ≠ 0xFF#8) →
    s.sampleCount.toNat ≤ s.params.sampleMax →
    8 * (s.msgLen.toNat + 1) ≤ s.sampleCount.toNat →
    ∃ t, exec .encode s = .next t ∧
      (∀ p < s.sampleCount.toNat, ∃ v, t.cell .pixDst p = some v ∧
        (∀ k, 1 ≤ k → v.getLsbD k = (s.operand .pixSrc p).getLsbD k) ∧
        (p < 8 → v.getLsbD 0 = (BitVec.ofNat 8 s.msgLen.toNat).getLsbD (7 - p)) ∧
        (∀ i < s.msgLen.toNat, ∀ j < 8, p = 8 * (i + 1) + j →
          v.getLsbD 0 =
            (s.operand .msg i ^^^ s.operand .key (i % s.keyLen.toNat)).getLsbD (7 - j)) ∧
        (8 * (s.msgLen.toNat + 1) ≤ p → v.getLsbD 0 = (s.operand .pixSrc p).getLsbD 0)) ∧
      t.msgLen = s.msgLen ∧ t.dataLen = s.dataLen ∧ t.bitsLen = s.bitsLen ∧
      Succeeded s t ∧ FixedKept s t ∧ KeptOutside s t .pixDst s.sampleCount.toNat

/-- `DECODE`: with `L` the byte the low bits of samples 0 to 7 spell, the `L` bytes after it, unlocked
with the key, become the message (R144, R145). -/
def Obligations.DecodeUnlocksTheFrame : Prop :=
  ∀ (s : State) (L : Byte),
    (∀ j < 8, L.getLsbD (7 - j) = (s.operand .pixSrc j).getLsbD 0) →
    s.sampleCount.toNat ≤ s.params.sampleMax → 8 * (L.toNat + 1) ≤ s.sampleCount.toNat →
    1 ≤ s.keyLen.toNat → s.keyLen.toNat ≤ s.params.keyMax →
    ∃ t, exec .decode s = .next t ∧
      (∀ i < L.toNat, ∃ v, t.cell .msg i = some v ∧
        ∀ j < 8, v.getLsbD (7 - j) =
          Bool.xor ((s.operand .pixSrc (8 * (i + 1) + j)).getLsbD 0)
            ((s.operand .key (i % s.keyLen.toNat)).getLsbD (7 - j))) ∧
      t.msgLen.toNat = L.toNat ∧ t.dataLen = s.dataLen ∧ t.bitsLen = s.bitsLen ∧
      Succeeded s t ∧ FixedKept s t ∧ KeptOutside s t .msg L.toNat

/-! ## Errors in the order of R162 -/

/-- The error codes are those of R160; `check_key` and the length limits of `LOCK` and `UNLOCK`, and
`check_key` first in `ENCODE` too (R101, R103, R105, R141). -/
def Obligations.KeyAndLengthErrorsComeFirst : Prop :=
  (∀ e : ErrorKind, e.code = match e with
    | .emptyKey => 1#4 | .unsupportedCharacter => 2#4 | .messageTooLong => 3#4
    | .capacityExceeded => 4#4 | .illegalCommand => 5#4 | .limitExceeded => 6#4) ∧
  ∀ s : State,
    (∀ i : Instr, (i = .lock ∨ i = .unlock ∨ i = .encode) →
      (s.keyLen.toNat = 0 → ∃ t, exec i s = .next t ∧ FailedWith s t .emptyKey 0#32) ∧
      (s.keyLen.toNat ≠ 0 → s.params.keyMax < s.keyLen.toNat →
        ∃ t, exec i s = .next t ∧
          FailedWith s t .limitExceeded (BitVec.ofNat 32 s.keyLen.toNat))) ∧
    (1 ≤ s.keyLen.toNat → s.keyLen.toNat ≤ s.params.keyMax →
      (s.params.bufBytes < s.msgLen.toNat → ∃ t, exec .lock s = .next t ∧
        FailedWith s t .limitExceeded (BitVec.ofNat 32 s.msgLen.toNat)) ∧
      (s.params.bufBytes < s.dataLen.toNat → ∃ t, exec .unlock s = .next t ∧
        FailedWith s t .limitExceeded (BitVec.ofNat 32 s.dataLen.toNat)) ∧
      (255 < s.msgLen.toNat → ∃ t, exec .encode s = .next t ∧
        FailedWith s t .messageTooLong (BitVec.ofNat 32 s.msgLen.toNat)))

/-- `check_range` in `LOCK` and `ENCODE`: the first `0xFF` of the message is reported with its index,
else the first `0xFF` of the key with its index and bit 16; no other command reports
`UnsupportedCharacter` (R102). -/
def Obligations.RangeCheckReportsTheFirstUnsupportedByte : Prop :=
  (∀ (i : Instr) (s : State),
    (i = .lock ∧ s.msgLen.toNat ≤ s.params.bufBytes ∨ i = .encode ∧ s.msgLen.toNat ≤ 255) →
    1 ≤ s.keyLen.toNat → s.keyLen.toNat ≤ s.params.keyMax →
    (∀ p < s.msgLen.toNat, s.operand .msg p = 0xFF#8 →
      (∀ q < p, s.operand .msg q ≠ 0xFF#8) →
      ∃ t, exec i s = .next t ∧ FailedWith s t .unsupportedCharacter (BitVec.ofNat 32 p)) ∧
    (∀ p < s.keyLen.toNat, (∀ q < s.msgLen.toNat, s.operand .msg q ≠ 0xFF#8) →
      s.operand .key p = 0xFF#8 → (∀ q < p, s.operand .key q ≠ 0xFF#8) →
      ∃ t, exec i s = .next t ∧
        FailedWith s t .unsupportedCharacter (0x00010000#32 ||| BitVec.ofNat 32 p))) ∧
  ∀ (i : Instr) (s t : State), i ≠ .lock → i ≠ .encode → exec i s = .next t →
    t.status.errcode ≠ ErrorKind.unsupportedCharacter.code

/-- `LimitExceeded` in the bit-plane commands and, for the sample count, in `DECODE`: the offending
value is the detail (R121, R122, R123, R145, R170). -/
def Obligations.BitPlaneLimitsAreReported : Prop :=
  ∀ s : State,
    (s.params.bufBytes < s.dataLen.toNat → ∃ t, exec .b2b s = .next t ∧
      FailedWith s t .limitExceeded (BitVec.ofNat 32 s.dataLen.toNat)) ∧
    (8 * s.params.bufBytes < s.bitsLen.toNat → ∃ t, exec .embed s = .next t ∧
      FailedWith s t .limitExceeded (BitVec.ofNat 32 s.bitsLen.toNat)) ∧
    (∀ c, s.params.bufBytes < c → ∃ t, exec (.extract c) s = .next t ∧
      FailedWith s t .limitExceeded (BitVec.ofNat 32 c)) ∧
    (s.params.sampleMax < s.sampleCount.toNat →
      (s.bitsLen.toNat ≤ 8 * s.params.bufBytes → ∃ t, exec .embed s = .next t ∧
        FailedWith s t .limitExceeded s.sampleCount) ∧
      (∀ c ≤ s.params.bufBytes, ∃ t, exec (.extract c) s = .next t ∧
        FailedWith s t .limitExceeded s.sampleCount) ∧
      (∃ t, exec .decode s = .next t ∧ FailedWith s t .limitExceeded s.sampleCount))

/-- With `S ≤ SAMPLE_MAX`: `EMBED` of at most `BITS_MAX` bits succeeds when they fit in `S` samples and
else ends with `CapacityExceeded`; `EXTRACT c` likewise with `8c` (R125). -/
def Obligations.CapacityBoundaryIsExact : Prop :=
  ∀ s : State, s.sampleCount.toNat ≤ s.params.sampleMax →
    (s.bitsLen.toNat ≤ 8 * s.params.bufBytes →
      (s.bitsLen.toNat ≤ s.sampleCount.toNat →
        ∃ t, exec .embed s = .next t ∧ Succeeded s t) ∧
      (s.sampleCount.toNat < s.bitsLen.toNat →
        ∃ t, exec .embed s = .next t ∧
          FailedWith s t .capacityExceeded (s.sampleCount >>> 3))) ∧
    ∀ c ≤ s.params.bufBytes,
      (8 * c ≤ s.sampleCount.toNat → ∃ t, exec (.extract c) s = .next t ∧ Succeeded s t) ∧
      (s.sampleCount.toNat < 8 * c →
        ∃ t, exec (.extract c) s = .next t ∧
          FailedWith s t .capacityExceeded (s.sampleCount >>> 3))

/-- The last checks of `ENCODE`: too many samples, then too few for the frame, the advisory figure the
detail of either capacity check (R141, R142). -/
def Obligations.EncodeRejectsAFrameThatDoesNotFit : Prop :=
  ∀ s : State,
    1 ≤ s.keyLen.toNat → s.keyLen.toNat ≤ s.params.keyMax → s.msgLen.toNat ≤ 255 →
    (∀ i < s.msgLen.toNat, s.operand .msg i ≠ 0xFF#8) →
    (∀ j < s.keyLen.toNat, s.operand .key j ≠ 0xFF#8) →
    (s.params.sampleMax < s.sampleCount.toNat → ∃ t, exec .encode s = .next t ∧
      FailedWith s t .limitExceeded s.sampleCount) ∧
    (s.sampleCount.toNat ≤ s.params.sampleMax →
      s.sampleCount.toNat < 8 * (s.msgLen.toNat + 1) → ∃ t, exec .encode s = .next t ∧
      FailedWith s t .capacityExceeded (s.sampleCount >>> 3))

/-- The checks of `DECODE` after the sample limit: fewer than 8 samples, then fewer than the frame
needs, then the key (R145). -/
def Obligations.DecodeChecksCapacityBeforeKey : Prop :=
  ∀ (s : State) (L : Byte), s.sampleCount.toNat ≤ s.params.sampleMax →
    (∀ j < 8, L.getLsbD (7 - j) = (s.operand .pixSrc j).getLsbD 0) →
    (s.sampleCount.toNat < 8 * (L.toNat + 1) →
      ∃ t, exec .decode s = .next t ∧
        FailedWith s t .capacityExceeded (s.sampleCount >>> 3)) ∧
    (8 * (L.toNat + 1) ≤ s.sampleCount.toNat →
      (s.keyLen.toNat = 0 →
        ∃ t, exec .decode s = .next t ∧ FailedWith s t .emptyKey 0#32) ∧
      (s.keyLen.toNat ≠ 0 → s.params.keyMax < s.keyLen.toNat →
        ∃ t, exec .decode s = .next t ∧
          FailedWith s t .limitExceeded (BitVec.ofNat 32 s.keyLen.toNat)))

/-- The longest message that `ENCODE` accepts is `min(255, (S >> 3) - 1)` bytes where `S ≥ 8`; below 8
samples it accepts none (R143). -/
def Obligations.LongestEncodableMessage : Prop :=
  ∀ s : State,
    1 ≤ s.keyLen.toNat → s.keyLen.toNat ≤ s.params.keyMax →
    (∀ i < s.msgLen.toNat, s.operand .msg i ≠ 0xFF#8) →
    (∀ j < s.keyLen.toNat, s.operand .key j ≠ 0xFF#8) →
    s.sampleCount.toNat ≤ s.params.sampleMax →
    ((∃ t, exec .encode s = .next t ∧ Succeeded s t) ↔
      8 ≤ s.sampleCount.toNat ∧ s.msgLen.toNat ≤ min 255 ((s.sampleCount >>> 3).toNat - 1))

/-! ## Laws between commands -/

/-- `UNLOCK` after a successful `LOCK` returns the message (R107). -/
def Obligations.UnlockAfterLockReturnsTheMessage : Prop :=
  ∀ s t : State, s.Written .key s.keyLen.toNat → s.Written .msg s.msgLen.toNat →
    exec .lock s = .next t → t.status.err = false →
    ∃ u, exec .unlock t = .next u ∧ Succeeded t u ∧ u.msgLen = s.msgLen ∧
      ∀ i < s.msgLen.toNat, u.cell .msg i = s.cell .msg i

/-- `LOCK` after a successful `UNLOCK` returns the data bytes exactly when no output byte and no key
byte is `0xFF`; otherwise it ends with `UnsupportedCharacter` (R108). -/
def Obligations.LockAfterUnlockReturnsTheDataUnlessFF : Prop :=
  ∀ s t : State, s.Written .key s.keyLen.toNat → s.Written .data s.dataLen.toNat →
    exec .unlock s = .next t → t.status.err = false →
    (((∀ i < s.dataLen.toNat, t.cell .msg i ≠ some 0xFF#8) ∧
      (∀ j < s.keyLen.toNat, s.cell .key j ≠ some 0xFF#8)) →
      ∃ u, exec .lock t = .next u ∧ Succeeded t u ∧ u.dataLen = s.dataLen ∧
        ∀ i < s.dataLen.toNat, u.cell .data i = s.cell .data i) ∧
    (((∃ i < s.dataLen.toNat, t.cell .msg i = some 0xFF#8) ∨
      (∃ j < s.keyLen.toNat, s.cell .key j = some 0xFF#8)) →
      ∃ u info, exec .lock t = .next u ∧ FailedWith t u .unsupportedCharacter info)

/-- Any bytes that fit in the samples survive `B2B`, `EMBED`, the host's copy of `PIX_DST` to `PIX_SRC`
and `EXTRACT` (R126). -/
def Obligations.EmbedExtractRoundTrip : Prop :=
  ∀ s : State, s.params.Legal → s.dataLen.toNat ≤ s.params.bufBytes →
    8 * s.dataLen.toNat ≤ s.sampleCount.toNat → s.sampleCount.toNat ≤ s.params.sampleMax →
    s.Written .data s.dataLen.toNat →
    ∃ t, exec .b2b s = .next t ∧ Succeeded s t ∧
      ∃ u, exec .embed t = .next u ∧ Succeeded t u ∧
        ∀ c : State, c.params = u.params → c.sampleCount = u.sampleCount →
          (∀ p < u.sampleCount.toNat, c.cell .pixSrc p = u.cell .pixDst p) →
          ∃ v, exec (.extract s.dataLen.toNat) c = .next v ∧ Succeeded c v ∧
            v.dataLen = s.dataLen ∧ ∀ i < s.dataLen.toNat, v.cell .data i = s.cell .data i

/-- `DECODE` with the same key, after the host has copied `PIX_DST` to `PIX_SRC`, returns the message
of a successful `ENCODE`, and bits 7 to 1 of the samples survive (R150). -/
def Obligations.DecodeAfterEncodeReturnsTheMessage : Prop :=
  ∀ s t c : State, s.Written .key s.keyLen.toNat → s.Written .msg s.msgLen.toNat →
    exec .encode s = .next t → t.status.err = false →
    c.params = t.params → c.sampleCount = t.sampleCount → c.keyLen = s.keyLen →
    (∀ p < s.sampleCount.toNat, c.cell .pixSrc p = t.cell .pixDst p) →
    (∀ j < s.keyLen.toNat, c.cell .key j = s.cell .key j) →
    (∃ u, exec .decode c = .next u ∧ Succeeded c u ∧ u.msgLen = s.msgLen ∧
      ∀ i < s.msgLen.toNat, u.cell .msg i = s.cell .msg i) ∧
    ∀ p < s.sampleCount.toNat, ∀ k, 1 ≤ k →
      (c.operand .pixSrc p).getLsbD k = (s.operand .pixSrc p).getLsbD k

/-- `DECODE` with any other valid key still succeeds, with the encoded length and the doubly keyed
bytes; nothing reports the mismatch (R146). -/
def Obligations.DecodeWithAWrongKeySucceedsWithGarbage : Prop :=
  ∀ s t c : State, s.Written .key s.keyLen.toNat → s.Written .msg s.msgLen.toNat →
    exec .encode s = .next t → t.status.err = false →
    c.params = t.params → c.sampleCount = t.sampleCount →
    (∀ p < s.sampleCount.toNat, c.cell .pixSrc p = t.cell .pixDst p) →
    1 ≤ c.keyLen.toNat → c.keyLen.toNat ≤ c.params.keyMax →
    ∃ u, exec .decode c = .next u ∧ Succeeded c u ∧ u.msgLen = s.msgLen ∧
      ∀ i < s.msgLen.toNat, u.cell .msg i =
        some (s.operand .msg i ^^^ s.operand .key (i % s.keyLen.toNat) ^^^
          c.operand .key (i % c.keyLen.toNat))

/-- The empty message: `ENCODE` clears bit 0 of eight samples and copies the rest, and `DECODE` of the
copy with any valid key gives the empty message (R147). -/
def Obligations.EmptyMessageRoundTrip : Prop :=
  ∀ s : State, s.msgLen = 0#16 → 1 ≤ s.keyLen.toNat → s.keyLen.toNat ≤ s.params.keyMax →
    (∀ j < s.keyLen.toNat, s.operand .key j ≠ 0xFF#8) →
    8 ≤ s.sampleCount.toNat → s.sampleCount.toNat ≤ s.params.sampleMax →
    ∃ t, exec .encode s = .next t ∧ Succeeded s t ∧
      (∀ p < s.sampleCount.toNat, t.cell .pixDst p =
        some (if p < 8 then s.operand .pixSrc p &&& 0xFE#8 else s.operand .pixSrc p)) ∧
      ∀ c : State, c.params = t.params → c.sampleCount = t.sampleCount →
        (∀ p < s.sampleCount.toNat, c.cell .pixSrc p = t.cell .pixDst p) →
        1 ≤ c.keyLen.toNat → c.keyLen.toNat ≤ c.params.keyMax →
        ∃ u, exec .decode c = .next u ∧ Succeeded c u ∧ u.msgLen = 0#16

/-- Where the host wrote every element a command reads, no draw shows: the command ends the same way
whatever the next draws are (R45, R104). -/
def Obligations.WrittenOperandsDetermineTheResult : Prop :=
  ∀ (i : Instr) (s t : State) (d : Nat), s.OperandsWritten i → exec i s = .next t →
    exec i { s with draws := d } = .next { t with draws := d + 1 }

/-- A command repeated with no host write between gives the same result, or the same error and detail
(R148; for every command, since none reads what it writes, R36). -/
def Obligations.RepeatedCommandRepeatsItsResult : Prop :=
  ∀ (i : Instr) (s t : State), s.OperandsWritten i → exec i s = .next t →
    exec i t = .next { t with draws := t.draws + 1 }

/-- Bits 7 to 1 of the samples are ignored by `EXTRACT` and by `DECODE` (R123, R145). -/
def Obligations.ExtractionSeesOnlyLowBits : Prop :=
  ∀ (i : Instr) (s t : State) (m : Memory 8), (i = .decode ∨ ∃ c, i = .extract c) →
    (∀ p, (State.operand { s with pixSrc := m } .pixSrc p).getLsbD 0 =
      (s.operand .pixSrc p).getLsbD 0) →
    exec i s = .next t → exec i { s with pixSrc := m } = .next { t with pixSrc := m }

/-- Packing undoes expansion, and both are as R120 writes them. -/
def Obligations.PackUndoesExpansion : Prop :=
  (∀ v : Byte, pack (fun j => msbBit v j) = v) ∧
  (∀ (v : Byte) (j : Nat), j < 8 → msbBit v j = if v.getLsbD (7 - j) then 1#8 else 0#8) ∧
  ∀ b : Nat → Bool, (pack (fun j => if b j then 1#8 else 0#8)).toNat =
    (b 0).toNat * 2 ^ 7 + (b 1).toNat * 2 ^ 6 + (b 2).toNat * 2 ^ 5 + (b 3).toNat * 2 ^ 4 +
    (b 4).toNat * 2 ^ 3 + (b 5).toNat * 2 ^ 2 + (b 6).toNat * 2 ^ 1 + (b 7).toNat * 2 ^ 0

/-! ## Host accesses (10_state.md §2, 20_memory.md) -/

/-- The window map of R52 and the register offsets of R23 in numbers, and the sizes of R36. An access of
1, 2 or 4 bytes is admitted exactly when it is aligned and lies in the register page with width 4, or
in the implemented part of one buffer; any other is a bus error, read or write (R54, R55, R58). -/
def Obligations.AccessesAreAdmittedAsTheMapSays : Prop :=
  (∀ r : Reg, regOff r = match r with
    | .id => 0x000#32 | .cmd => 0x004#32 | .status => 0x008#32 | .errInfo => 0x00C#32
    | .keyLen => 0x010#32 | .msgLen => 0x014#32 | .dataLen => 0x018#32 | .bitsLen => 0x01C#32
    | .sampleCount => 0x020#32 | .capacity => 0x024#32 | .paramBuf => 0x028#32
    | .paramKey => 0x02C#32 | .paramSamples => 0x030#32) ∧
  (∀ (b : Buf) (i : Nat), elemOff b i = BitVec.ofNat 32 (i + match b with
    | .key => 0x1000 | .msg => 0x2000 | .data => 0x3000 | .bits => 0x4000
    | .pixSrc => 0x01000000 | .pixDst => 0x02000000)) ∧
  (∀ (p : Params) (b : Buf), b.size p = match b with
    | .key => p.keyMax | .msg => p.bufBytes | .data => p.bufBytes | .bits => 8 * p.bufBytes
    | .pixSrc => p.sampleMax | .pixDst => p.sampleMax) ∧
  ∀ (s : State) (off : Word) (width : Width) (v : Word), s.params.Legal →
    let a : Nat := off.toNat
    let n : Nat := match width with
      | .byte => 1 | .half => 2 | .word => 4
    let admitted : Prop := a % n = 0 ∧
      (n = 4 ∧ a + n ≤ 0x1000 ∨
        0x1000 ≤ a ∧ a + n ≤ 0x1000 + s.params.keyMax ∨
        0x2000 ≤ a ∧ a + n ≤ 0x2000 + s.params.bufBytes ∨
        0x3000 ≤ a ∧ a + n ≤ 0x3000 + s.params.bufBytes ∨
        0x4000 ≤ a ∧ a + n ≤ 0x4000 + 8 * s.params.bufBytes ∨
        0x01000000 ≤ a ∧ a + n ≤ 0x01000000 + s.params.sampleMax ∨
        0x02000000 ≤ a ∧ a + n ≤ 0x02000000 + s.params.sampleMax)
    (admitted → (∃ t, hostRead off width s = .next t) ∧
      ∃ t, hostWrite off width v s = .next t) ∧
    (¬ admitted → ∃ kind, hostRead off width s = .fault (.hostAccessFault off width kind) ∧
      hostWrite off width v s = .fault (.hostAccessFault off width kind))

/-- In every state `ID` reads its constant, `CMD` the last accepted word, `ERR_INFO` the stored error
detail, `CAPACITY` `SAMPLE_COUNT >> 3` and `PARAM_*` the parameters; a write to a read-only register
while no command is pending is ignored (R22, R23, R24, R27, R33, R34). -/
def Obligations.ReadOnlyRegistersReadTheirValues : Prop :=
  ∀ s : State,
    (∃ t, hostRead (regOff .id) .word s = .next t ∧ t.reply = some 0x53470001#32) ∧
    (∃ t, hostRead (regOff .cmd) .word s = .next t ∧ t.reply = some s.cmd) ∧
    (∃ t, hostRead (regOff .errInfo) .word s = .next t ∧ t.reply = some s.errInfo) ∧
    (∃ t, hostRead (regOff .paramBuf) .word s = .next t ∧
      t.reply = some (BitVec.ofNat 32 s.params.bufBytes)) ∧
    (∃ t, hostRead (regOff .paramKey) .word s = .next t ∧
      t.reply = some (BitVec.ofNat 32 s.params.keyMax)) ∧
    (∃ t, hostRead (regOff .paramSamples) .word s = .next t ∧
      t.reply = some (BitVec.ofNat 32 s.params.sampleMax)) ∧
    (∃ t, hostRead (regOff .capacity) .word s = .next t ∧
      t.reply = some (s.sampleCount >>> 3)) ∧
    ∀ (r : Reg) (v : Word), s.pending = none →
      (r = .id ∨ r = .errInfo ∨ r = .capacity ∨ r = .paramBuf ∨ r = .paramKey ∨
        r = .paramSamples) →
      hostWrite (regOff r) .word v s = .next { s with reply := none }

/-- A length register stores bits [15:0] of any value written while no command is pending, and reads
it zero-extended unless the pending command is about to write it (R28; R194 and R195 for a pending
command). `SAMPLE_COUNT` stores all 32 bits and reads them in every state, no command writes it, and
`CAPACITY` reads it shifted right by 3 (R33). -/
def Obligations.LengthRegistersKeepSixteenBits : Prop :=
  ∀ (s : State) (v : Word),
    (s.pending = none →
      hostWrite (regOff .keyLen) .word v s =
        .next { s with keyLen := v.extractLsb' 0 16, reply := none } ∧
      hostWrite (regOff .msgLen) .word v s =
        .next { s with msgLen := v.extractLsb' 0 16, reply := none } ∧
      hostWrite (regOff .dataLen) .word v s =
        .next { s with dataLen := v.extractLsb' 0 16, reply := none } ∧
      hostWrite (regOff .bitsLen) .word v s =
        .next { s with bitsLen := v.extractLsb' 0 16, reply := none } ∧
      hostWrite (regOff .sampleCount) .word v s =
        .next { s with sampleCount := v, reply := none }) ∧
    (∃ t, hostRead (regOff .sampleCount) .word s = .next t ∧ t.reply = some s.sampleCount) ∧
    (∃ t, hostRead (regOff .capacity) .word s = .next t ∧
      t.reply = some (s.sampleCount >>> 3)) ∧
    (∀ (i : Instr) (t : State), exec i s = .next t → t.sampleCount = s.sampleCount) ∧
    (∃ t, hostRead (regOff .keyLen) .word s = .next t ∧ t.reply = some (0#16 ++ s.keyLen)) ∧
    (s.regPending .msgLen = false →
      ∃ t, hostRead (regOff .msgLen) .word s = .next t ∧ t.reply = some (0#16 ++ s.msgLen)) ∧
    (s.regPending .dataLen = false →
      ∃ t, hostRead (regOff .dataLen) .word s = .next t ∧ t.reply = some (0#16 ++ s.dataLen)) ∧
    (s.regPending .bitsLen = false →
      ∃ t, hostRead (regOff .bitsLen) .word s = .next t ∧ t.reply = some (0#16 ++ s.bitsLen))

/-- Reserved register offsets read 0 and ignore writes; while a command is pending a write there is
dropped like any other (R35). -/
def Obligations.ReservedOffsetsReadZero : Prop :=
  ∀ (s : State) (off v : Word), 0x034 ≤ off.toNat → off.toNat ≤ 0xFFC → off.toNat % 4 = 0 →
    (∃ t, hostRead off .word s = .next t ∧ t.reply = some 0#32) ∧
    (s.pending = none → hostWrite off .word v s = .next { s with reply := none }) ∧
    (s.pending ≠ none → hostWrite off .word v s =
      .next { s with reply := none, status := { s.status with ovr := true } })

/-- A read of `STATUS` returns its fields at their bits, and 0 at every other bit (R25). -/
def Obligations.StatusReadsItsFields : Prop :=
  ∀ s : State, ∃ t v, hostRead (regOff .status) .word s = .next t ∧ t.reply = some v ∧
    v.getLsbD 0 = s.status.busy ∧ v.getLsbD 1 = s.status.done ∧ v.getLsbD 2 = s.status.err ∧
    v.getLsbD 3 = s.status.ovr ∧ (∀ j < 4, v.getLsbD (8 + j) = s.status.errcode.getLsbD j) ∧
    ∀ k, (4 ≤ k ∧ k < 8 ∨ 12 ≤ k) → v.getLsbD k = false

/-- A write to `STATUS`, pending command or not, clears `OVR` where bit 3 is 1 and does nothing else
(R26). -/
def Obligations.StatusWriteOnlyClearsOverrun : Prop :=
  ∀ (s : State) (v : Word), hostWrite (regOff .status) .word v s = .next { s with
    reply := none,
    status := { s.status with ovr := if v.getLsbD 3 then false else s.status.ovr } }

/-- A buffer write of `w` bytes stores byte lane `j` in element `i + j`, for `j < w`, and changes
nothing else (R56, R57). -/
def Obligations.BufferWriteStoresItsLanes : Prop :=
  ∀ (s : State) (b : Buf) (i : Nat) (width : Width) (v : Word), s.params.Legal →
    s.pending = none → i % width.bytes = 0 → i + width.bytes ≤ b.size s.params →
    ∃ t, hostWrite (elemOff b i) width v s = .next t ∧
      (∀ j < width.bytes, t.cell b (i + j) = some (b.kept (v.extractLsb' (8 * j) 8))) ∧
      (∀ (b' : Buf) (p : Nat), ¬ (b' = b ∧ i ≤ p ∧ p < i + width.bytes) →
        t.cell b' p = s.cell b' p) ∧
      t.reply = none ∧ t.params = s.params ∧ t.cmd = s.cmd ∧ t.status = s.status ∧
      t.errInfo = s.errInfo ∧ t.keyLen = s.keyLen ∧ t.msgLen = s.msgLen ∧
      t.dataLen = s.dataLen ∧ t.bitsLen = s.bitsLen ∧ t.sampleCount = s.sampleCount ∧
      t.pending = none ∧ t.draws = s.draws ∧ t.host = s.host ∧ t.turns = s.turns

/-- A four-byte write is read back byte by byte, and four one-byte writes as their little-endian
combination (R60); so are a two-byte write and two one-byte writes, and a two-byte read of any two
written elements outside the pending write set is their little-endian combination, zero above (R56,
R57; the zeros are log 9; a bit cell keeps bit 0 of its byte, R38). -/
def Obligations.MixedWidthViewsAgree : Prop :=
  ∀ (s : State) (b : Buf) (i : Nat), s.params.Legal →
    (s.bufPending b = false → i % 2 = 0 → i + 2 ≤ b.size s.params → ∀ c0 c1 : Byte,
      s.cell b i = some c0 → s.cell b (i + 1) = some c1 →
      ∃ u, hostRead (elemOff b i) .half s = .next u ∧ u.reply = some (0#16 ++ c1 ++ c0)) ∧
    (s.pending = none → i % 2 = 0 → i + 2 ≤ b.size s.params →
      (∀ (v : Word) (t : State), hostWrite (elemOff b i) .half v s = .next t →
        ∀ j < 2, ∃ u, hostRead (elemOff b (i + j)) .byte t = .next u ∧
          u.reply = some ((b.kept (v.extractLsb' (8 * j) 8)).setWidth 32)) ∧
      ∀ (v0 v1 : Byte) (t0 t1 : State),
        hostWrite (elemOff b i) .byte (v0.setWidth 32) s = .next t0 →
        hostWrite (elemOff b (i + 1)) .byte (v1.setWidth 32) t0 = .next t1 →
        ∃ u, hostRead (elemOff b i) .half t1 = .next u ∧
          u.reply = some (0#16 ++ b.kept v1 ++ b.kept v0)) ∧
    (s.pending = none → i % 4 = 0 → i + 4 ≤ b.size s.params →
      (∀ (v : Word) (t : State), hostWrite (elemOff b i) .word v s = .next t →
        ∀ j < 4, ∃ u, hostRead (elemOff b (i + j)) .byte t = .next u ∧
          u.reply = some ((b.kept (v.extractLsb' (8 * j) 8)).setWidth 32)) ∧
      ∀ (v0 v1 v2 v3 : Byte) (t0 t1 t2 t3 : State),
        hostWrite (elemOff b i) .byte (v0.setWidth 32) s = .next t0 →
        hostWrite (elemOff b (i + 1)) .byte (v1.setWidth 32) t0 = .next t1 →
        hostWrite (elemOff b (i + 2)) .byte (v2.setWidth 32) t1 = .next t2 →
        hostWrite (elemOff b (i + 3)) .byte (v3.setWidth 32) t2 = .next t3 →
        ∃ u, hostRead (elemOff b i) .word t3 = .next u ∧
          u.reply = some (b.kept v3 ++ b.kept v2 ++ b.kept v1 ++ b.kept v0))

/-- A four-byte access to `BITS_MEM` moves one bit cell per byte lane (R59). -/
def Obligations.BitCellsMoveOnePerLane : Prop :=
  ∀ (s : State) (i : Nat) (v : Word), s.params.Legal → s.pending = none →
    i % 4 = 0 → i + 4 ≤ 8 * s.params.bufBytes →
    (∃ t, hostWrite (elemOff .bits i) .word v s = .next t ∧
      t.cell .bits i = some (if v.getLsbD 0 then 1#8 else 0#8) ∧
      t.cell .bits (i + 1) = some (if v.getLsbD 8 then 1#8 else 0#8) ∧
      t.cell .bits (i + 2) = some (if v.getLsbD 16 then 1#8 else 0#8) ∧
      t.cell .bits (i + 3) = some (if v.getLsbD 24 then 1#8 else 0#8)) ∧
    ∀ c0 c1 c2 c3 : Byte, s.cell .bits i = some c0 → s.cell .bits (i + 1) = some c1 →
      s.cell .bits (i + 2) = some c2 → s.cell .bits (i + 3) = some c3 →
      ∃ u, hostRead (elemOff .bits i) .word s = .next u ∧
        u.reply = some (c0.setWidth 32 ||| (c1.setWidth 32 <<< 8) ||| (c2.setWidth 32 <<< 16) |||
          (c3.setWidth 32 <<< 24))

/-- A host read changes nothing of the core, and read again it returns the same data, unless an
element was never written or is about to be written by the pending command (R62). -/
def Obligations.ReadsChangeNothingAndRepeat : Prop :=
  ∀ (s t : State) (off : Word) (width : Width), hostRead off width s = .next t →
    t = { s with reply := t.reply, draws := s.draws + 1 } ∧
    ((∀ b, regionOf off.toNat = .buffer b → s.bufPending b = false ∧
        ∀ j < width.bytes, (s.cell b (off.toNat - b.base + j)).isSome = true) →
      (∀ r, regAt off.toNat = some r → s.regPending r = false) →
      ∃ u, hostRead off width t = .next u ∧ u.reply = t.reply)

/-- The window offset of a host bus address, and back (R51). -/
def Obligations.WindowOffsetsAreRelativeToBase : Prop :=
  ∀ (p : Params) (addr : Nat) (off : Word),
    busOffset p addr = some off ↔ addr = p.base + off.toNat

/-! ## The pending command as a hazard (70_reset_and_hazards.md §2) -/

/-- An admitted write to any offset but `STATUS` while a command is pending is dropped and sets `OVR`;
one that is not admitted is a bus error and sets nothing (R194). -/
def Obligations.WritesWhilePendingAreDropped : Prop :=
  ∀ (s : State) (off : Word) (width : Width) (v : Word), s.pending ≠ none →
    (off ≠ regOff .status → admission s.params off width = none →
      hostWrite off width v s =
        .next { s with reply := none, status := { s.status with ovr := true } }) ∧
    (off = regOff .status → width = .word → hostWrite off width v s = .next { s with
      reply := none,
      status := { s.status with ovr := if v.getLsbD 3 then false else s.status.ovr } }) ∧
    (∀ kind, admission s.params off width = some kind →
      hostWrite off width v s = .fault (.hostAccessFault off width kind))

/-- While a command is pending, reads outside its write set return what they returned at acceptance:
every register by its value, every written element by its content, at every width (R196). -/
def Obligations.ReadsOutsideTheWriteSetAreExact : Prop :=
  ∀ (s : State) (w : Word), s.Inv → s.pending = some w →
    (∃ t, hostRead (regOff .cmd) .word s = .next t ∧ t.reply = some w) ∧
    (∃ t, hostRead (regOff .errInfo) .word s = .next t ∧ t.reply = some 0#32) ∧
    (∃ t, hostRead (regOff .status) .word s = .next t ∧
      t.reply = some (if s.status.ovr then 0x00000009#32 else 0x00000001#32)) ∧
    (∃ t, hostRead (regOff .id) .word s = .next t ∧ t.reply = some 0x53470001#32) ∧
    (∃ t, hostRead (regOff .keyLen) .word s = .next t ∧ t.reply = some (0#16 ++ s.keyLen)) ∧
    (∃ t, hostRead (regOff .sampleCount) .word s = .next t ∧ t.reply = some s.sampleCount) ∧
    (∃ t, hostRead (regOff .capacity) .word s = .next t ∧
      t.reply = some (s.sampleCount >>> 3)) ∧
    (∃ t, hostRead (regOff .paramBuf) .word s = .next t ∧
      t.reply = some (BitVec.ofNat 32 s.params.bufBytes)) ∧
    (∃ t, hostRead (regOff .paramKey) .word s = .next t ∧
      t.reply = some (BitVec.ofNat 32 s.params.keyMax)) ∧
    (∃ t, hostRead (regOff .paramSamples) .word s = .next t ∧
      t.reply = some (BitVec.ofNat 32 s.params.sampleMax)) ∧
    (s.regPending .msgLen = false →
      ∃ t, hostRead (regOff .msgLen) .word s = .next t ∧ t.reply = some (0#16 ++ s.msgLen)) ∧
    (s.regPending .dataLen = false →
      ∃ t, hostRead (regOff .dataLen) .word s = .next t ∧ t.reply = some (0#16 ++ s.dataLen)) ∧
    (s.regPending .bitsLen = false →
      ∃ t, hostRead (regOff .bitsLen) .word s = .next t ∧ t.reply = some (0#16 ++ s.bitsLen)) ∧
    ∀ (b : Buf) (i : Nat) (width : Width) (f : Nat → Byte), s.bufPending b = false →
      i % width.bytes = 0 → i + width.bytes ≤ b.size s.params →
      (∀ j < width.bytes, s.cell b (i + j) = some (f j)) →
      ∃ t v, hostRead (elemOff b i) width s = .next t ∧ t.reply = some v ∧
        ∀ j < width.bytes, v.extractLsb' (8 * j) 8 = f j

/-- A read of the pending command's write set shows nothing of its contents, old or new: two states
that agree on the pending command, the parameters and the count of draws answer it alike (R195; that
the answer is one draw of both states is the model's choice, logs 2 and 3). -/
def Obligations.PendingWriteSetIsUnobservable : Prop :=
  ∀ (s s' t t' : State) (off : Word) (width : Width),
    s'.pending = s.pending → s'.params = s.params → s'.draws = s.draws →
    ((∃ b, regionOf off.toNat = .buffer b ∧ s.bufPending b = true) ∨
      (∃ r, regionOf off.toNat = .registers ∧ regAt off.toNat = some r ∧
        s.regPending r = true)) →
    hostRead off width s = .next t → hostRead off width s' = .next t' → t'.reply = t.reply

/-- No host step but reset touches a pending command: it stays pending, with its word, its operands and
everything else it reads (R15, R194, R197). -/
def Obligations.HostStepsLeaveThePendingCommand : Prop :=
  ∀ (s t : State) (w : Word), s.pending = some w → s.mover = .host →
    s.host.head? ≠ some .reset → step s = .next t →
    t.pending = some w ∧ t.cmd = s.cmd ∧ t.params = s.params ∧ t.errInfo = s.errInfo ∧
    t.keyLen = s.keyLen ∧ t.msgLen = s.msgLen ∧ t.dataLen = s.dataLen ∧
    t.bitsLen = s.bitsLen ∧ t.sampleCount = s.sampleCount ∧
    t.status = { s.status with ovr := t.status.ovr } ∧ ∀ b i, t.cell b i = s.cell b i

/-- No accepted command stays pending: within the steps the schedule allows it has completed or was
aborted by reset, or a host access ended the run with a bus error (R191, R197). That the schedule is
finite, so that its length bounds the wait, is the model's choice (log 5). -/
def Obligations.NoAcceptedCommandStaysPending : Prop :=
  ∀ s : State, s.pending ≠ none →
    ∃ k, k ≤ s.turns.length + 1 ∧
      ((∃ t, Sys2Proof.core.run k s = .next t ∧ t.pending = none) ∨
        ∃ f, Sys2Proof.core.run k s = .fault f)

/-- A host that writes nothing but `STATUS` while a command is pending never sets `OVR` (R179, R193). -/
def Obligations.ObedientHostCausesNoOverrun : Prop :=
  ∀ s t : State, (∀ h, s.host.head? = some h → h.obeys s = true) → step s = .next t →
    t.status.ovr = true → s.status.ovr = true

/-! ## The machine -/

/-- The invariant holds after reset, whatever the legal parameters (R44). -/
def Obligations.ResetMeetsTheInvariant : Prop :=
  (∀ p : Params, p.Legal → (State.resetWith p).Inv) ∧ State.reset.Inv

/-- The invariant is kept by every step, of the core or of the host, from every state that meets it
(R25, R27, R36, R40, R160). -/
def Obligations.EveryStepKeepsTheInvariant : Prop :=
  ∀ s t : State, s.Inv → step s = .next t → t.Inv

/-- The reset input sets every register to its value of R44, aborts the pending command and leaves no
buffer element defined (R190, R191). That it is an entry of the host's queue which lands whenever the
host's side moves, and that the rest of the queue is kept, is the model's choice (logs 4, 5, 11). -/
def Obligations.ResetInputRestoresTheResetState : Prop :=
  ∀ (s : State) (rest : List HostStep), s.host = .reset :: rest →
    (s.pending = none ∨ s.turns.head? = some .host) →
    ∃ t, step s = .next t ∧ t.params = s.params ∧ t.cmd = 0#32 ∧ t.status.word = 0#32 ∧
      t.errInfo = 0#32 ∧ t.keyLen = 0#16 ∧ t.msgLen = 0#16 ∧ t.dataLen = 0#16 ∧
      t.bitsLen = 0#16 ∧ t.sampleCount = 0#32 ∧ t.pending = none ∧
      (∀ b i, t.cell b i = none) ∧ t.host = rest

/-- A step stops for one reason only: the host's next access is not admitted. Nothing is ever refused,
and no command faults (R58, R83, R165). -/
def Obligations.OnlyABusErrorStopsAStep : Prop :=
  ∀ s : State, (∀ r, step s ≠ .refused r) ∧
    ∀ f, step s = .fault f → ∃ off width kind, f = .hostAccessFault off width kind ∧
      admission s.params off width = some kind

/-- With no pending command and no host step left, the core is idle and keeps all state (R178). -/
def Obligations.IdleCoreKeepsAllState : Prop :=
  ∀ s : State, s.pending = none → s.host = [] → step s = .next s

/-- A step at which the host moves, with or without a pending command, makes its next access: `rd` and
`wr` as the queue says, and `wait` reads `STATUS` and stays the next step exactly while `BUSY` is 1
(R61, R86, R88, R89). Such a step uses up one choice of the schedule where a command is pending; queue
and schedule are the model's (logs 4 and 5). -/
def Obligations.HostMovesMakeTheirNextAccess : Prop :=
  ∀ (s u : State) (rest : List HostStep),
    (s.pending = none ∧ u = s ∨
      s.pending ≠ none ∧ s.turns.head? = some .host ∧ u = { s with turns := s.turns.tail }) →
    (∀ off width, s.host = .read off width :: rest →
      step s = hostRead off width { u with host := rest }) ∧
    (∀ off width v, s.host = .write off width v :: rest →
      step s = hostWrite off width v { u with host := rest }) ∧
    (s.host = .wait :: rest →
      step s = hostRead (regOff .status) .word
        { u with host := if s.status.busy then .wait :: rest else rest })

/-- One round of `copy`: two host steps move sample `i` of `PIX_DST` to `PIX_SRC` and change nothing
else of the buffers (R89). -/
def Obligations.CopyRoundMovesOneSample : Prop :=
  ∀ (s : State) (i : Nat) (v : Byte) (rest : List HostStep), s.params.Legal →
    s.pending = none → s.host = .copySample i :: rest → i < s.params.sampleMax →
    s.cell .pixDst i = some v →
    ∃ t u, step s = .next t ∧ step t = .next u ∧ u.cell .pixSrc i = some v ∧ u.host = rest ∧
      ∀ b p, ¬ (b = .pixSrc ∧ p = i) → u.cell b p = s.cell b p
end

