-- ==== Sys2Proof/Laws/Memory.lean ====
section
/-! SUPPORT. One buffer's contents: read after write, the canonical form, and that two canonical
contents that read alike are equal. -/

namespace Sys2Proof.Machine

variable {w : Nat}

@[simp] theorem Memory.read_nil (i : Nat) : Memory.read ([] : Memory w) i = none := rfl

theorem Memory.read_cons (c : Nat × BitVec w) (m : Memory w) (i : Nat) :
    Memory.read (c :: m) i = if i = c.1 then some c.2 else Memory.read m i := rfl

@[simp] theorem Memory.read_write (m : Memory w) (i : Nat) (v : BitVec w) (j : Nat) :
    Memory.read (Memory.write m i v) j = if j = i then some v else Memory.read m j := by
  induction m with
  | nil => rfl
  | cons c m ih =>
    obtain ⟨k, u⟩ := c
    simp only [Memory.write]
    split
    · simp [Memory.read_cons]
    · split
      · subst k
        by_cases h : j = i <;> simp [Memory.read_cons, h]
      · by_cases h : j = k
        · have : j ≠ i := by omega
          simp [Memory.read_cons, h, show k ≠ i by omega]
        · simp [Memory.read_cons, h, ih]

theorem Memory.read_append (m m' : Memory w) (i : Nat) :
    Memory.read (m ++ m') i = (Memory.read m i).or (Memory.read m' i) := by
  induction m with
  | nil => simp
  | cons c m ih =>
    by_cases h : i = c.1 <;> simp [Memory.read_cons, h, ih]

theorem Memory.read_range (n : Nat) (f : Nat → BitVec w) (i : Nat) :
    Memory.read ((List.range n).map (fun i => (i, f i))) i = if i < n then some (f i) else none := by
  induction n with
  | zero => simp
  | succ n ih =>
    rw [List.range_succ, List.map_append, Memory.read_append, ih]
    by_cases h : i < n
    · simp [h, show i < n + 1 by omega]
    · by_cases h' : i = n
      · simp [h', Memory.read_cons]
      · simp [h, h', Memory.read_cons, show ¬ i < n + 1 by omega]

theorem Memory.read_filter (m : Memory w) (n i : Nat) :
    Memory.read (m.filter (fun c => decide (n ≤ c.1))) i =
      if n ≤ i then Memory.read m i else none := by
  induction m with
  | nil => simp
  | cons c m ih =>
    by_cases hc : n ≤ c.1
    · simp only [List.filter_cons, hc, decide_true, if_true, Memory.read_cons, ih]
      by_cases h : i = c.1
      · simp [h, hc]
      · simp [h]
    · simp only [List.filter_cons, hc, decide_false, Bool.false_eq_true, if_false, Memory.read_cons, ih]
      by_cases h : n ≤ i
      · simp [h, show i ≠ c.1 by omega]
      · simp [h]

@[simp] theorem Memory.read_writeBlock (m : Memory w) (n : Nat) (f : Nat → BitVec w) (i : Nat) :
    Memory.read (Memory.writeBlock m n f) i = if i < n then some (f i) else Memory.read m i := by
  rw [Memory.writeBlock, Memory.read_append, Memory.read_range, Memory.read_filter]
  by_cases h : i < n
  · simp [h]
  · simp [h, show n ≤ i by omega]

/-! ## The canonical form is kept -/

theorem Memory.mem_write {m : Memory w} {i : Nat} {v : BitVec w} {c : Nat × BitVec w}
    (h : c ∈ Memory.write m i v) : c = (i, v) ∨ c ∈ m := by
  induction m with
  | nil => simpa [Memory.write] using h
  | cons d m ih =>
    obtain ⟨k, u⟩ := d
    simp only [Memory.write] at h
    split at h
    · simpa using h
    · split at h
      · simp only [List.mem_cons] at h ⊢
        tauto
      · simp only [List.mem_cons] at h ⊢
        rcases h with h | h
        · exact .inr (.inl h)
        · rcases ih h with h | h <;> tauto

theorem Memory.write_wf {m : Memory w} (h : Memory.wf m) (i : Nat) (v : BitVec w) :
    Memory.wf (Memory.write m i v) := by
  induction m with
  | nil => simp [Memory.write]
  | cons d m ih =>
    obtain ⟨k, u⟩ := d
    obtain ⟨hk, hm⟩ := List.pairwise_cons.1 h
    simp only [Memory.write]
    split
    · refine List.pairwise_cons.2 ⟨fun c hc => ?_, h⟩
      rcases List.mem_cons.1 hc with rfl | hc
      · assumption
      · exact lt_trans ‹i < k› (hk c hc)
    · split
      · subst k
        exact List.pairwise_cons.2 ⟨hk, hm⟩
      · refine List.pairwise_cons.2 ⟨fun c hc => ?_, ih hm⟩
        rcases Memory.mem_write hc with rfl | hc
        · show k < i
          omega
        · exact hk c hc

theorem Memory.writeBlock_wf {m : Memory w} (h : Memory.wf m) (n : Nat) (f : Nat → BitVec w) :
    Memory.wf (Memory.writeBlock m n f) := by
  refine List.pairwise_append.2 ⟨?_, h.filter _, ?_⟩
  · exact List.pairwise_map.2 List.pairwise_lt_range
  · intro a ha b hb
    obtain ⟨i, hi, rfl⟩ := List.mem_map.1 ha
    have hi := List.mem_range.1 hi
    have hb := of_decide_eq_true (List.mem_filter.1 hb).2
    exact lt_of_lt_of_le hi hb

theorem Memory.write_within {m : Memory w} {n : Nat} (h : Memory.Within m n) {i : Nat} (hi : i < n)
    (v : BitVec w) : Memory.Within (Memory.write m i v) n := by
  intro c hc
  rcases Memory.mem_write hc with rfl | hc
  · exact hi
  · exact h c hc

theorem Memory.writeBlock_within {m : Memory w} {n : Nat} (h : Memory.Within m n) {k : Nat}
    (hk : k ≤ n) (f : Nat → BitVec w) : Memory.Within (Memory.writeBlock m k f) n := by
  intro c hc
  rcases List.mem_append.1 hc with hc | hc
  · obtain ⟨i, hi, rfl⟩ := List.mem_map.1 hc
    exact lt_of_lt_of_le (List.mem_range.1 hi) hk
  · exact h c (List.mem_filter.1 hc).1

/-! ## Canonical contents are determined by what they read as -/

theorem Memory.read_eq_none_of_lt {m : Memory w} {k : Nat} (h : ∀ c ∈ m, k < c.1) :
    Memory.read m k = none := by
  induction m with
  | nil => rfl
  | cons c m ih =>
    have hc := h c (by simp)
    rw [Memory.read_cons, if_neg (by omega)]
    exact ih fun d hd => h d (by simp [hd])

theorem Memory.ext_of_wf {m m' : Memory w} (h : Memory.wf m) (h' : Memory.wf m')
    (hr : ∀ i, Memory.read m i = Memory.read m' i) : m = m' := by
  induction m generalizing m' with
  | nil =>
    cases m' with
    | nil => rfl
    | cons d m' => simpa [Memory.read_cons] using hr d.1
  | cons c m ih =>
    cases m' with
    | nil => simpa [Memory.read_cons] using hr c.1
    | cons d m' =>
      obtain ⟨hc, hm⟩ := List.pairwise_cons.1 h
      obtain ⟨hd, hm'⟩ := List.pairwise_cons.1 h'
      have hcd : c.1 = d.1 := by
        by_contra hne
        rcases Nat.lt_or_gt_of_ne hne with hlt | hlt
        · have := hr c.1
          rw [Memory.read_cons, if_pos rfl, Memory.read_eq_none_of_lt] at this
          · cases this
          · intro e he
            rcases List.mem_cons.1 he with rfl | he
            · exact hlt
            · exact lt_trans hlt (hd e he)
        · have := hr d.1
          rw [Memory.read_cons d, if_pos rfl, Memory.read_eq_none_of_lt] at this
          · cases this
          · intro e he
            rcases List.mem_cons.1 he with rfl | he
            · exact hlt
            · exact lt_trans hlt (hc e he)
      have hval : c.2 = d.2 := by
        have := hr c.1
        rw [Memory.read_cons, Memory.read_cons, if_pos rfl, if_pos hcd] at this
        exact Option.some.inj this
      have htail : m = m' := by
        refine ih hm hm' fun i => ?_
        by_cases hi : i = c.1
        · rw [hi, Memory.read_eq_none_of_lt hc, hcd, Memory.read_eq_none_of_lt hd]
        · have := hr i
          rwa [Memory.read_cons, Memory.read_cons, if_neg hi, if_neg (hcd ▸ hi)] at this
      rw [htail, Prod.ext hcd hval]

/-- The block write is the loop of R9: in index order, one write a round. -/
theorem Memory.writeBlock_succ {m : Memory w} (h : Memory.wf m) (n : Nat) (f : Nat → BitVec w) :
    Memory.writeBlock m (n + 1) f = Memory.write (Memory.writeBlock m n f) n (f n) := by
  refine Memory.ext_of_wf (Memory.writeBlock_wf h _ _)
    (Memory.write_wf (Memory.writeBlock_wf h _ _) _ _) fun i => ?_
  rw [Memory.read_writeBlock, Memory.read_write, Memory.read_writeBlock]
  by_cases hi : i = n
  · simp [hi]
  · by_cases hn : i < n
    · simp [hi, hn, show i < n + 1 by omega]
    · simp [hi, hn, show ¬ i < n + 1 by omega]

theorem Memory.writeBlock_zero (m : Memory w) (f : Nat → BitVec w) :
    Memory.writeBlock m 0 f = m := by
  simp [Memory.writeBlock]

end Sys2Proof.Machine
end

