-- ==== Sys2Proof/Laws/State.lean ====
section
/-! SUPPORT. What each named update of a state leaves in each register field, and what it leaves in each
buffer element. -/

namespace Sys2Proof.Machine

variable (s : State)

/-! ## Buffer writes: no register changes -/

@[simp] theorem State.setCell_params (b : Buf) (i : Nat) (v : Byte) : (s.setCell b i v).params = s.params := by
  cases b <;> rfl
@[simp] theorem State.setCell_cmd (b : Buf) (i : Nat) (v : Byte) : (s.setCell b i v).cmd = s.cmd := by
  cases b <;> rfl
@[simp] theorem State.setCell_status (b : Buf) (i : Nat) (v : Byte) : (s.setCell b i v).status = s.status := by
  cases b <;> rfl
@[simp] theorem State.setCell_errInfo (b : Buf) (i : Nat) (v : Byte) : (s.setCell b i v).errInfo = s.errInfo := by
  cases b <;> rfl
@[simp] theorem State.setCell_keyLen (b : Buf) (i : Nat) (v : Byte) : (s.setCell b i v).keyLen = s.keyLen := by
  cases b <;> rfl
@[simp] theorem State.setCell_msgLen (b : Buf) (i : Nat) (v : Byte) : (s.setCell b i v).msgLen = s.msgLen := by
  cases b <;> rfl
@[simp] theorem State.setCell_dataLen (b : Buf) (i : Nat) (v : Byte) : (s.setCell b i v).dataLen = s.dataLen := by
  cases b <;> rfl
@[simp] theorem State.setCell_bitsLen (b : Buf) (i : Nat) (v : Byte) : (s.setCell b i v).bitsLen = s.bitsLen := by
  cases b <;> rfl
@[simp] theorem State.setCell_sampleCount (b : Buf) (i : Nat) (v : Byte) : (s.setCell b i v).sampleCount = s.sampleCount := by
  cases b <;> rfl
@[simp] theorem State.setCell_pending (b : Buf) (i : Nat) (v : Byte) : (s.setCell b i v).pending = s.pending := by
  cases b <;> rfl
@[simp] theorem State.setCell_draws (b : Buf) (i : Nat) (v : Byte) : (s.setCell b i v).draws = s.draws := by
  cases b <;> rfl
@[simp] theorem State.setCell_host (b : Buf) (i : Nat) (v : Byte) : (s.setCell b i v).host = s.host := by
  cases b <;> rfl
@[simp] theorem State.setCell_reply (b : Buf) (i : Nat) (v : Byte) : (s.setCell b i v).reply = s.reply := by
  cases b <;> rfl
@[simp] theorem State.setCell_turns (b : Buf) (i : Nat) (v : Byte) : (s.setCell b i v).turns = s.turns := by
  cases b <;> rfl

@[simp] theorem State.setBlock_params (b : Buf) (n : Nat) (g : Nat → Byte) : (s.setBlock b n g).params = s.params := by
  cases b <;> rfl
@[simp] theorem State.setBlock_cmd (b : Buf) (n : Nat) (g : Nat → Byte) : (s.setBlock b n g).cmd = s.cmd := by
  cases b <;> rfl
@[simp] theorem State.setBlock_status (b : Buf) (n : Nat) (g : Nat → Byte) : (s.setBlock b n g).status = s.status := by
  cases b <;> rfl
@[simp] theorem State.setBlock_errInfo (b : Buf) (n : Nat) (g : Nat → Byte) : (s.setBlock b n g).errInfo = s.errInfo := by
  cases b <;> rfl
@[simp] theorem State.setBlock_keyLen (b : Buf) (n : Nat) (g : Nat → Byte) : (s.setBlock b n g).keyLen = s.keyLen := by
  cases b <;> rfl
@[simp] theorem State.setBlock_msgLen (b : Buf) (n : Nat) (g : Nat → Byte) : (s.setBlock b n g).msgLen = s.msgLen := by
  cases b <;> rfl
@[simp] theorem State.setBlock_dataLen (b : Buf) (n : Nat) (g : Nat → Byte) : (s.setBlock b n g).dataLen = s.dataLen := by
  cases b <;> rfl
@[simp] theorem State.setBlock_bitsLen (b : Buf) (n : Nat) (g : Nat → Byte) : (s.setBlock b n g).bitsLen = s.bitsLen := by
  cases b <;> rfl
@[simp] theorem State.setBlock_sampleCount (b : Buf) (n : Nat) (g : Nat → Byte) : (s.setBlock b n g).sampleCount = s.sampleCount := by
  cases b <;> rfl
@[simp] theorem State.setBlock_pending (b : Buf) (n : Nat) (g : Nat → Byte) : (s.setBlock b n g).pending = s.pending := by
  cases b <;> rfl
@[simp] theorem State.setBlock_draws (b : Buf) (n : Nat) (g : Nat → Byte) : (s.setBlock b n g).draws = s.draws := by
  cases b <;> rfl
@[simp] theorem State.setBlock_host (b : Buf) (n : Nat) (g : Nat → Byte) : (s.setBlock b n g).host = s.host := by
  cases b <;> rfl
@[simp] theorem State.setBlock_reply (b : Buf) (n : Nat) (g : Nat → Byte) : (s.setBlock b n g).reply = s.reply := by
  cases b <;> rfl
@[simp] theorem State.setBlock_turns (b : Buf) (n : Nat) (g : Nat → Byte) : (s.setBlock b n g).turns = s.turns := by
  cases b <;> rfl

/-! ## `setMsgLen` -/

@[simp] theorem State.setMsgLen_params (v : Half) : (s.setMsgLen v).params = s.params := rfl
@[simp] theorem State.setMsgLen_cmd (v : Half) : (s.setMsgLen v).cmd = s.cmd := rfl
@[simp] theorem State.setMsgLen_status (v : Half) : (s.setMsgLen v).status = s.status := rfl
@[simp] theorem State.setMsgLen_errInfo (v : Half) : (s.setMsgLen v).errInfo = s.errInfo := rfl
@[simp] theorem State.setMsgLen_keyLen (v : Half) : (s.setMsgLen v).keyLen = s.keyLen := rfl
@[simp] theorem State.setMsgLen_msgLen (v : Half) : (s.setMsgLen v).msgLen = v := rfl
@[simp] theorem State.setMsgLen_dataLen (v : Half) : (s.setMsgLen v).dataLen = s.dataLen := rfl
@[simp] theorem State.setMsgLen_bitsLen (v : Half) : (s.setMsgLen v).bitsLen = s.bitsLen := rfl
@[simp] theorem State.setMsgLen_sampleCount (v : Half) : (s.setMsgLen v).sampleCount = s.sampleCount := rfl
@[simp] theorem State.setMsgLen_pending (v : Half) : (s.setMsgLen v).pending = s.pending := rfl
@[simp] theorem State.setMsgLen_draws (v : Half) : (s.setMsgLen v).draws = s.draws := rfl
@[simp] theorem State.setMsgLen_host (v : Half) : (s.setMsgLen v).host = s.host := rfl
@[simp] theorem State.setMsgLen_reply (v : Half) : (s.setMsgLen v).reply = s.reply := rfl
@[simp] theorem State.setMsgLen_turns (v : Half) : (s.setMsgLen v).turns = s.turns := rfl
@[simp] theorem State.setMsgLen_cell (v : Half) (b : Buf) (i : Nat) :
    (s.setMsgLen v).cell b i = s.cell b i := by
  cases b <;> rfl

/-! ## `setDataLen` -/

@[simp] theorem State.setDataLen_params (v : Half) : (s.setDataLen v).params = s.params := rfl
@[simp] theorem State.setDataLen_cmd (v : Half) : (s.setDataLen v).cmd = s.cmd := rfl
@[simp] theorem State.setDataLen_status (v : Half) : (s.setDataLen v).status = s.status := rfl
@[simp] theorem State.setDataLen_errInfo (v : Half) : (s.setDataLen v).errInfo = s.errInfo := rfl
@[simp] theorem State.setDataLen_keyLen (v : Half) : (s.setDataLen v).keyLen = s.keyLen := rfl
@[simp] theorem State.setDataLen_msgLen (v : Half) : (s.setDataLen v).msgLen = s.msgLen := rfl
@[simp] theorem State.setDataLen_dataLen (v : Half) : (s.setDataLen v).dataLen = v := rfl
@[simp] theorem State.setDataLen_bitsLen (v : Half) : (s.setDataLen v).bitsLen = s.bitsLen := rfl
@[simp] theorem State.setDataLen_sampleCount (v : Half) : (s.setDataLen v).sampleCount = s.sampleCount := rfl
@[simp] theorem State.setDataLen_pending (v : Half) : (s.setDataLen v).pending = s.pending := rfl
@[simp] theorem State.setDataLen_draws (v : Half) : (s.setDataLen v).draws = s.draws := rfl
@[simp] theorem State.setDataLen_host (v : Half) : (s.setDataLen v).host = s.host := rfl
@[simp] theorem State.setDataLen_reply (v : Half) : (s.setDataLen v).reply = s.reply := rfl
@[simp] theorem State.setDataLen_turns (v : Half) : (s.setDataLen v).turns = s.turns := rfl
@[simp] theorem State.setDataLen_cell (v : Half) (b : Buf) (i : Nat) :
    (s.setDataLen v).cell b i = s.cell b i := by
  cases b <;> rfl

/-! ## `setBitsLen` -/

@[simp] theorem State.setBitsLen_params (v : Half) : (s.setBitsLen v).params = s.params := rfl
@[simp] theorem State.setBitsLen_cmd (v : Half) : (s.setBitsLen v).cmd = s.cmd := rfl
@[simp] theorem State.setBitsLen_status (v : Half) : (s.setBitsLen v).status = s.status := rfl
@[simp] theorem State.setBitsLen_errInfo (v : Half) : (s.setBitsLen v).errInfo = s.errInfo := rfl
@[simp] theorem State.setBitsLen_keyLen (v : Half) : (s.setBitsLen v).keyLen = s.keyLen := rfl
@[simp] theorem State.setBitsLen_msgLen (v : Half) : (s.setBitsLen v).msgLen = s.msgLen := rfl
@[simp] theorem State.setBitsLen_dataLen (v : Half) : (s.setBitsLen v).dataLen = s.dataLen := rfl
@[simp] theorem State.setBitsLen_bitsLen (v : Half) : (s.setBitsLen v).bitsLen = v := rfl
@[simp] theorem State.setBitsLen_sampleCount (v : Half) : (s.setBitsLen v).sampleCount = s.sampleCount := rfl
@[simp] theorem State.setBitsLen_pending (v : Half) : (s.setBitsLen v).pending = s.pending := rfl
@[simp] theorem State.setBitsLen_draws (v : Half) : (s.setBitsLen v).draws = s.draws := rfl
@[simp] theorem State.setBitsLen_host (v : Half) : (s.setBitsLen v).host = s.host := rfl
@[simp] theorem State.setBitsLen_reply (v : Half) : (s.setBitsLen v).reply = s.reply := rfl
@[simp] theorem State.setBitsLen_turns (v : Half) : (s.setBitsLen v).turns = s.turns := rfl
@[simp] theorem State.setBitsLen_cell (v : Half) (b : Buf) (i : Nat) :
    (s.setBitsLen v).cell b i = s.cell b i := by
  cases b <;> rfl

/-! ## Completion and acceptance -/

@[simp] theorem State.complete_params (code : BitVec 4) (info : Word) : (s.complete code info).params = s.params := rfl
@[simp] theorem State.complete_cmd (code : BitVec 4) (info : Word) : (s.complete code info).cmd = s.cmd := rfl
@[simp] theorem State.complete_status (code : BitVec 4) (info : Word) : (s.complete code info).status = s.status.completed code := rfl
@[simp] theorem State.complete_errInfo (code : BitVec 4) (info : Word) : (s.complete code info).errInfo = info := rfl
@[simp] theorem State.complete_keyLen (code : BitVec 4) (info : Word) : (s.complete code info).keyLen = s.keyLen := rfl
@[simp] theorem State.complete_msgLen (code : BitVec 4) (info : Word) : (s.complete code info).msgLen = s.msgLen := rfl
@[simp] theorem State.complete_dataLen (code : BitVec 4) (info : Word) : (s.complete code info).dataLen = s.dataLen := rfl
@[simp] theorem State.complete_bitsLen (code : BitVec 4) (info : Word) : (s.complete code info).bitsLen = s.bitsLen := rfl
@[simp] theorem State.complete_sampleCount (code : BitVec 4) (info : Word) : (s.complete code info).sampleCount = s.sampleCount := rfl
@[simp] theorem State.complete_pending (code : BitVec 4) (info : Word) : (s.complete code info).pending = none := rfl
@[simp] theorem State.complete_draws (code : BitVec 4) (info : Word) : (s.complete code info).draws = s.draws + 1 := rfl
@[simp] theorem State.complete_host (code : BitVec 4) (info : Word) : (s.complete code info).host = s.host := rfl
@[simp] theorem State.complete_reply (code : BitVec 4) (info : Word) : (s.complete code info).reply = s.reply := rfl
@[simp] theorem State.complete_turns (code : BitVec 4) (info : Word) : (s.complete code info).turns = s.turns := rfl
@[simp] theorem State.complete_cell (code : BitVec 4) (info : Word) (b : Buf) (i : Nat) :
    (s.complete code info).cell b i = s.cell b i := by
  cases b <;> rfl

@[simp] theorem State.accept_params (w : Word) : (s.accept w).params = s.params := rfl
@[simp] theorem State.accept_cmd (w : Word) : (s.accept w).cmd = w := rfl
@[simp] theorem State.accept_status (w : Word) : (s.accept w).status = s.status.accepted := rfl
@[simp] theorem State.accept_errInfo (w : Word) : (s.accept w).errInfo = 0x00000000#32 := rfl
@[simp] theorem State.accept_keyLen (w : Word) : (s.accept w).keyLen = s.keyLen := rfl
@[simp] theorem State.accept_msgLen (w : Word) : (s.accept w).msgLen = s.msgLen := rfl
@[simp] theorem State.accept_dataLen (w : Word) : (s.accept w).dataLen = s.dataLen := rfl
@[simp] theorem State.accept_bitsLen (w : Word) : (s.accept w).bitsLen = s.bitsLen := rfl
@[simp] theorem State.accept_sampleCount (w : Word) : (s.accept w).sampleCount = s.sampleCount := rfl
@[simp] theorem State.accept_pending (w : Word) : (s.accept w).pending = some w := rfl
@[simp] theorem State.accept_draws (w : Word) : (s.accept w).draws = s.draws := rfl
@[simp] theorem State.accept_host (w : Word) : (s.accept w).host = s.host := rfl
@[simp] theorem State.accept_reply (w : Word) : (s.accept w).reply = s.reply := rfl
@[simp] theorem State.accept_turns (w : Word) : (s.accept w).turns = s.turns := rfl
@[simp] theorem State.accept_cell (w : Word) (b : Buf) (i : Nat) :
    (s.accept w).cell b i = s.cell b i := by
  cases b <;> rfl

/-! ## The schedule -/

@[simp] theorem State.takeTurn_params : (s.takeTurn).params = s.params := rfl
@[simp] theorem State.takeTurn_cmd : (s.takeTurn).cmd = s.cmd := rfl
@[simp] theorem State.takeTurn_status : (s.takeTurn).status = s.status := rfl
@[simp] theorem State.takeTurn_errInfo : (s.takeTurn).errInfo = s.errInfo := rfl
@[simp] theorem State.takeTurn_keyLen : (s.takeTurn).keyLen = s.keyLen := rfl
@[simp] theorem State.takeTurn_msgLen : (s.takeTurn).msgLen = s.msgLen := rfl
@[simp] theorem State.takeTurn_dataLen : (s.takeTurn).dataLen = s.dataLen := rfl
@[simp] theorem State.takeTurn_bitsLen : (s.takeTurn).bitsLen = s.bitsLen := rfl
@[simp] theorem State.takeTurn_sampleCount : (s.takeTurn).sampleCount = s.sampleCount := rfl
@[simp] theorem State.takeTurn_pending : (s.takeTurn).pending = s.pending := rfl
@[simp] theorem State.takeTurn_draws : (s.takeTurn).draws = s.draws := rfl
@[simp] theorem State.takeTurn_host : (s.takeTurn).host = s.host := rfl
@[simp] theorem State.takeTurn_reply : (s.takeTurn).reply = s.reply := rfl
@[simp] theorem State.takeTurn_turns : (s.takeTurn).turns = s.turns.tail := rfl
@[simp] theorem State.takeTurn_cell (b : Buf) (i : Nat) :
    s.takeTurn.cell b i = s.cell b i := by
  cases b <;> rfl

/-! ## Buffer elements -/

theorem setWidth_one_setWidth_eight (v : Byte) : (v.setWidth 1).setWidth 8 = v &&& 0x01#8 := by
  decide +revert

/-- An element after a write: what the buffer keeps of the value there, the old content elsewhere. -/
theorem State.cell_setCell (b : Buf) (i : Nat) (v : Byte) (b' : Buf) (j : Nat) :
    (s.setCell b i v).cell b' j = if b' = b ∧ j = i then some (b.kept v) else s.cell b' j := by
  cases b <;> cases b' <;>
    simp [State.setCell, State.cell, Buf.kept, apply_ite (Option.map _),
      setWidth_one_setWidth_eight]

/-- An element after a block write. -/
theorem State.cell_setBlock (b : Buf) (n : Nat) (g : Nat → Byte) (b' : Buf) (j : Nat) :
    (s.setBlock b n g).cell b' j = if b' = b ∧ j < n then some (b.kept (g j)) else s.cell b' j := by
  cases b <;> cases b' <;>
    simp [State.setBlock, State.cell, Buf.kept, apply_ite (Option.map _),
      setWidth_one_setWidth_eight]

/-- A block write depends only on the values it stores. -/
theorem State.setBlock_congr (b : Buf) (n : Nat) {g g' : Nat → Byte} (h : ∀ i < n, g i = g' i) :
    s.setBlock b n g = s.setBlock b n g' := by
  have key : ∀ {w : Nat} (m : Memory w) (k : Byte → BitVec w),
      Memory.writeBlock m n (fun i => k (g i)) = Memory.writeBlock m n (fun i => k (g' i)) := by
    intro w m k
    unfold Memory.writeBlock
    congr 1
    exact List.map_congr_left fun i hi => by simp only [h i (List.mem_range.1 hi)]
  cases b <;> simp only [State.setBlock]
  case bits => rw [key _ (fun v => v.setWidth 1)]
  all_goals
    have := fun m => key (w := 8) m id
    simp only [id] at this
    rw [this]

/-- Two states with the same six buffers have the same elements. -/
theorem State.cell_congr {s t : State} (hk : t.keyMem = s.keyMem) (hm : t.msgMem = s.msgMem)
    (hd : t.dataMem = s.dataMem) (hb : t.bitsMem = s.bitsMem) (hp : t.pixSrc = s.pixSrc)
    (hq : t.pixDst = s.pixDst) (b : Buf) (i : Nat) : t.cell b i = s.cell b i := by
  cases b <;> simp [State.cell, *]

/-! ## The canonical form of the buffers -/

theorem State.MemoryOk.setCell {s : State} (h : s.MemoryOk) (b : Buf) {i : Nat}
    (hi : i < b.size s.params) (v : Byte) : (s.setCell b i v).MemoryOk := by
  obtain ⟨⟨hk, hm, hd, hb, hp, hq⟩, wk, wm, wd, wb, wp, wq⟩ := h
  cases b
  · exact ⟨⟨Memory.write_wf hk _ _, hm, hd, hb, hp, hq⟩, Memory.write_within wk hi _, wm, wd, wb, wp, wq⟩
  · exact ⟨⟨hk, Memory.write_wf hm _ _, hd, hb, hp, hq⟩, wk, Memory.write_within wm hi _, wd, wb, wp, wq⟩
  · exact ⟨⟨hk, hm, Memory.write_wf hd _ _, hb, hp, hq⟩, wk, wm, Memory.write_within wd hi _, wb, wp, wq⟩
  · exact ⟨⟨hk, hm, hd, Memory.write_wf hb _ _, hp, hq⟩, wk, wm, wd, Memory.write_within wb hi _, wp, wq⟩
  · exact ⟨⟨hk, hm, hd, hb, Memory.write_wf hp _ _, hq⟩, wk, wm, wd, wb, Memory.write_within wp hi _, wq⟩
  · exact ⟨⟨hk, hm, hd, hb, hp, Memory.write_wf hq _ _⟩, wk, wm, wd, wb, wp, Memory.write_within wq hi _⟩

theorem State.MemoryOk.setBlock {s : State} (h : s.MemoryOk) (b : Buf) {n : Nat}
    (hn : n ≤ b.size s.params) (g : Nat → Byte) : (s.setBlock b n g).MemoryOk := by
  obtain ⟨⟨hk, hm, hd, hb, hp, hq⟩, wk, wm, wd, wb, wp, wq⟩ := h
  cases b
  · exact ⟨⟨Memory.writeBlock_wf hk _ _, hm, hd, hb, hp, hq⟩, Memory.writeBlock_within wk hn _, wm, wd, wb, wp, wq⟩
  · exact ⟨⟨hk, Memory.writeBlock_wf hm _ _, hd, hb, hp, hq⟩, wk, Memory.writeBlock_within wm hn _, wd, wb, wp, wq⟩
  · exact ⟨⟨hk, hm, Memory.writeBlock_wf hd _ _, hb, hp, hq⟩, wk, wm, Memory.writeBlock_within wd hn _, wb, wp, wq⟩
  · exact ⟨⟨hk, hm, hd, Memory.writeBlock_wf hb _ _, hp, hq⟩, wk, wm, wd, Memory.writeBlock_within wb hn _, wp, wq⟩
  · exact ⟨⟨hk, hm, hd, hb, Memory.writeBlock_wf hp _ _, hq⟩, wk, wm, wd, wb, Memory.writeBlock_within wp hn _, wq⟩
  · exact ⟨⟨hk, hm, hd, hb, hp, Memory.writeBlock_wf hq _ _⟩, wk, wm, wd, wb, wp, Memory.writeBlock_within wq hn _⟩

end Sys2Proof.Machine
end

