-- ==== Sys2Proof/Laws/Ops.lean ====
section
/-! SUPPORT. The shared operations of the commands: when each check passes, how a command ends, and what
its operands are. -/

namespace Sys2Proof.Machine

/-! ## Checks -/

@[simp] theorem firstError_nil : firstError [] = none := rfl

@[simp] theorem firstError_some (r : Raise) (cs : List (Option Raise)) :
    firstError (some r :: cs) = some r := rfl

@[simp] theorem firstError_none (cs : List (Option Raise)) :
    firstError (none :: cs) = firstError cs := rfl

theorem firstError_eq_none_iff {cs : List (Option Raise)} :
    firstError cs = none ↔ ∀ c ∈ cs, c = none := by
  induction cs with
  | nil => simp
  | cons c cs ih => cases c <;> simp [ih]

theorem firstError_mem {cs : List (Option Raise)} {r : Raise} (h : firstError cs = some r) :
    some r ∈ cs := by
  induction cs with
  | nil => simp at h
  | cons c cs ih => cases c <;> simp_all

theorem keyError_eq_none_iff (s : State) :
    keyError s = none ↔ 1 ≤ s.keyLen.toNat ∧ s.keyLen.toNat ≤ s.params.keyMax := by
  unfold keyError
  split
  · simp; omega
  · split <;> simp <;> omega

theorem limitError_eq_none_iff (v bound : Nat) : limitError v bound = none ↔ v ≤ bound := by
  unfold limitError
  split <;> simp <;> omega

theorem limitError_of_lt {v bound : Nat} (h : bound < v) :
    limitError v bound = some ⟨.limitExceeded, BitVec.ofNat 32 v⟩ := if_pos h

theorem sampleLimitError_eq_none_iff (s : State) :
    sampleLimitError s = none ↔ s.sampleCount.toNat ≤ s.params.sampleMax :=
  limitError_eq_none_iff _ _

theorem sampleLimitError_of_lt {s : State} (h : s.params.sampleMax < s.sampleCount.toNat) :
    sampleLimitError s = some ⟨.limitExceeded, s.sampleCount⟩ := by
  rw [sampleLimitError, limitError_of_lt h, BitVec.ofNat_toNat, BitVec.setWidth_eq]

theorem capacityError_eq_none_iff (s : State) (n : Nat) :
    capacityError s n = none ↔ n ≤ s.sampleCount.toNat := by
  unfold capacityError
  split <;> simp <;> omega

theorem capacityError_of_lt {s : State} {n : Nat} (h : s.sampleCount.toNat < n) :
    capacityError s n = some ⟨.capacityExceeded, s.capacity⟩ := if_pos h

theorem messageLengthError_eq_none_iff (n : Nat) : messageLengthError n = none ↔ n ≤ 255 := by
  unfold messageLengthError
  split <;> simp <;> omega

theorem State.capacity_toNat (s : State) : s.capacity.toNat = s.sampleCount.toNat / 8 := by
  simp [State.capacity, Nat.shiftRight_eq_div_pow]

theorem advisoryError_eq_none_iff (s : State) (n : Nat) :
    advisoryError s n = none ↔ n ≤ s.sampleCount.toNat / 8 := by
  unfold advisoryError
  rw [State.capacity_toNat]
  split <;> simp <;> omega

theorem firstUnsupported_eq_none_iff (s : State) (b : Buf) (n : Nat) :
    firstUnsupported s b n = none ↔ ∀ i < n, s.operand b i ≠ 0xFF#8 := by
  simp [firstUnsupported]

theorem firstUnsupported_eq_some_iff (s : State) (b : Buf) (n i : Nat) :
    firstUnsupported s b n = some i ↔
      i < n ∧ s.operand b i = 0xFF#8 ∧ ∀ j < i, s.operand b j ≠ 0xFF#8 := by
  simp only [firstUnsupported, List.find?_range_eq_some, List.mem_range]
  simp
  tauto

theorem rangeError_eq_none_iff (s : State) (n k : Nat) :
    rangeError s n k = none ↔
      (∀ i < n, s.operand .msg i ≠ 0xFF#8) ∧ ∀ j < k, s.operand .key j ≠ 0xFF#8 := by
  unfold rangeError
  rw [← firstUnsupported_eq_none_iff, ← firstUnsupported_eq_none_iff]
  cases firstUnsupported s .msg n <;> cases firstUnsupported s .key k <;> simp

theorem firstUnsupported_congr {s t : State} {b : Buf} {n : Nat}
    (h : ∀ i < n, t.operand b i = s.operand b i) :
    firstUnsupported t b n = firstUnsupported s b n := by
  cases hs : firstUnsupported s b n with
  | none =>
    rw [firstUnsupported_eq_none_iff] at hs ⊢
    exact fun i hi => h i hi ▸ hs i hi
  | some i =>
    rw [firstUnsupported_eq_some_iff] at hs ⊢
    obtain ⟨hi, hv, hj⟩ := hs
    exact ⟨hi, (h i hi).trans hv, fun j hji => h j (lt_trans hji hi) ▸ hj j hji⟩

/-- The range check depends only on the bytes it reads. -/
theorem rangeError_congr {s t : State} {n k : Nat}
    (hm : ∀ i < n, t.operand .msg i = s.operand .msg i)
    (hk : ∀ j < k, t.operand .key j = s.operand .key j) :
    rangeError t n k = rangeError s n k := by
  rw [rangeError, rangeError, firstUnsupported_congr hm, firstUnsupported_congr hk]

/-! ## How a command ends -/

theorem conclude_of_error {s w : State} {cs : List (Option Raise)} {r : Raise}
    (h : firstError cs = some r) : conclude s cs w = .next (s.raise r) := by
  simp [conclude, h]

theorem conclude_of_ok {s w : State} {cs : List (Option Raise)} (h : firstError cs = none) :
    conclude s cs w = .next (w.complete 0#4 0x00000000#32) := by
  simp [conclude, h]

/-- All that `conclude` can do: raise the first error from `s`, or complete the written state. -/
theorem conclude_cases {s w t : State} {cs : List (Option Raise)}
    (h : conclude s cs w = .next t) :
    (∃ r, firstError cs = some r ∧ t = s.raise r) ∨
      (firstError cs = none ∧ t = w.complete 0#4 0x00000000#32) := by
  cases hc : firstError cs with
  | none => rw [conclude_of_ok hc] at h; cases h; exact .inr ⟨rfl, rfl⟩
  | some r => rw [conclude_of_error hc] at h; cases h; exact .inl ⟨r, rfl, rfl⟩

/-- A change `F` of the state that the checks do not see, that commutes with raising an error, and that
takes one written state to the other, takes one conclusion to the other. -/
theorem conclude_map (F : State → State) {s w s' w' t : State} {cs cs' : List (Option Raise)}
    (h : conclude s cs w = .next t) (hc : firstError cs' = firstError cs)
    (hr : ∀ r, s'.raise r = F (s.raise r))
    (hw : firstError cs = none → w'.complete 0#4 0x00000000#32 = F (w.complete 0#4 0x00000000#32)) :
    conclude s' cs' w' = .next (F t) := by
  rcases conclude_cases h with ⟨r, h1, rfl⟩ | ⟨h1, rfl⟩
  · rw [conclude_of_error (hc.trans h1), hr]
  · rw [conclude_of_ok (hc.trans h1), hw h1]

theorem ErrorKind.code_ne_zero (e : ErrorKind) : e.code ≠ 0#4 := by cases e <;> decide

theorem ErrorKind.code_le (e : ErrorKind) : e.code.toNat ≤ 6 := by cases e <;> decide

@[simp] theorem Status.completed_zero (st : Status) : st.completed 0#4 =
    { busy := false, done := true, err := false, ovr := st.ovr, errcode := 0#4 } := rfl

theorem Status.completed_code (st : Status) (e : ErrorKind) : st.completed e.code =
    { busy := false, done := true, err := true, ovr := st.ovr, errcode := e.code } := by
  cases e <;> rfl

/-! ## Operands -/

theorem State.operand_of_cell {s : State} {b : Buf} {i : Nat} {v : Byte}
    (h : s.cell b i = some v) : s.operand b i = v := by
  simp [State.operand, h]

/-- A written element is its own operand. -/
theorem State.cell_of_written {s : State} {b : Buf} {n i : Nat} (h : s.Written b n) (hi : i < n) :
    s.cell b i = some (s.operand b i) := by
  obtain ⟨v, hv⟩ := Option.isSome_iff_exists.1 (h i hi)
  rw [hv, State.operand_of_cell hv]

/-- Operands depend only on the content and, where there is none, on the number of the draw. -/
theorem State.operand_congr {s t : State} {b : Buf} {i : Nat} (hc : t.cell b i = s.cell b i)
    (hd : t.draws = s.draws ∨ (s.cell b i).isSome = true) : t.operand b i = s.operand b i := by
  rcases hd with hd | hd
  · simp [State.operand, hc, hd]
  · obtain ⟨v, hv⟩ := Option.isSome_iff_exists.1 hd
    rw [State.operand_of_cell hv, State.operand_of_cell (hc.trans hv)]

end Sys2Proof.Machine
end

