-- ==== Sys2Proof/Laws/Operands.lean ====
section
/-! SUPPORT. The bits that expansion, packing and embedding place. -/

namespace Sys2Proof.Machine

theorem msbBit_getLsbD_zero (v : Byte) (j : Nat) :
    (msbBit v j).getLsbD 0 = v.getLsbD (7 - j) := by
  simp [msbBit]

theorem msbBit_getLsbD_succ (v : Byte) (j k : Nat) (hk : 1 ≤ k) :
    (msbBit v j).getLsbD k = false := by
  obtain ⟨k, rfl⟩ : ∃ m, k = m + 1 := ⟨k - 1, by omega⟩
  simp [msbBit]

theorem pack_getLsbD (b : Nat → Byte) {j : Nat} (hj : j < 8) :
    (pack b).getLsbD (7 - j) = (b j).getLsbD 0 := by
  interval_cases j <;> simp [pack]

/-- Two bytes with the same bits, counted from the most significant, are equal. -/
theorem byte_ext_msb {a b : Byte} (h : ∀ j < 8, a.getLsbD (7 - j) = b.getLsbD (7 - j)) : a = b := by
  refine BitVec.eq_of_getLsbD_eq fun i hi => ?_
  have := h (7 - i) (by omega)
  rwa [show 7 - (7 - i) = i by omega] at this

theorem replaceLowBit_getLsbD_zero (v bit : Byte) :
    (replaceLowBit v bit).getLsbD 0 = bit.getLsbD 0 := by
  simp [replaceLowBit]

theorem replaceLowBit_getLsbD_succ (v : Byte) {bit : Byte} {k : Nat} (hk : 1 ≤ k)
    (hb : bit.getLsbD k = false) : (replaceLowBit v bit).getLsbD k = v.getLsbD k := by
  by_cases h8 : k < 8
  · have : (0xFE#8).getLsbD k = true := by interval_cases k <;> rfl
    rw [replaceLowBit, BitVec.getLsbD_or, BitVec.getLsbD_and, this, hb]
    simp
  · simp [BitVec.getLsbD_of_ge _ _ (Nat.le_of_not_lt h8)]

theorem kept_bits_getLsbD_succ (v : Byte) {k : Nat} (hk : 1 ≤ k) :
    (Buf.bits.kept v).getLsbD k = false := by
  obtain ⟨k, rfl⟩ : ∃ m, k = m + 1 := ⟨k - 1, by omega⟩
  simp [Buf.kept]

/-- A bit cell read by a command is 0 or 1 (R38, R45). -/
theorem State.operand_bits_getLsbD_succ (s : State) (i : Nat) {k : Nat} (hk : 1 ≤ k) :
    (s.operand .bits i).getLsbD k = false := by
  obtain ⟨k, rfl⟩ : ∃ m, k = m + 1 := ⟨k - 1, by omega⟩
  cases h : Memory.read s.bitsMem i with
  | none =>
    rw [State.operand, State.cell, h]
    exact kept_bits_getLsbD_succ _ hk
  | some c => simp [State.operand, State.cell, h, BitVec.getLsbD_setWidth]

theorem State.sampleByte_getLsbD (s : State) (i : Nat) {j : Nat} (hj : j < 8) :
    (s.sampleByte i).getLsbD (7 - j) = (s.operand .pixSrc (8 * i + j)).getLsbD 0 :=
  pack_getLsbD _ hj

@[simp] theorem Buf.kept_data (v : Byte) : Buf.data.kept v = v := rfl
@[simp] theorem Buf.kept_msg (v : Byte) : Buf.msg.kept v = v := rfl
@[simp] theorem Buf.kept_key (v : Byte) : Buf.key.kept v = v := rfl
@[simp] theorem Buf.kept_pixSrc (v : Byte) : Buf.pixSrc.kept v = v := rfl
@[simp] theorem Buf.kept_pixDst (v : Byte) : Buf.pixDst.kept v = v := rfl

end Sys2Proof.Machine
end

