-- ==== Sys2Proof/Laws/Exec.lean ====
section
/-! SUPPORT. Everything a command can do, said once: it raises one error from the state at acceptance, or
writes one block of its destination buffer and its length register and completes. -/

namespace Sys2Proof

/-- The write of a command's length register, where it has one. -/
def Instr.setLength (i : Instr) (v : Half) (s : Machine.State) : Machine.State :=
  match i with
  | .lock => s.setDataLen v
  | .unlock => s.setMsgLen v
  | .b2b => s.setBitsLen v
  | .embed => s
  | .extract _ => s.setDataLen v
  | .encode => s
  | .decode => s.setMsgLen v

end Sys2Proof

namespace Sys2Proof.Machine

theorem conclude_shape {s w : State} {cs : List (Option Raise)} {P : State → Prop}
    (hok : firstError cs = none → P w) :
    (∃ r, conclude s cs w = .next (s.raise r)) ∨
      (conclude s cs w = .next (w.complete 0#4 0x00000000#32) ∧ P w) := by
  cases h : firstError cs with
  | none => exact .inr ⟨conclude_of_ok h, hok h⟩
  | some r => exact .inl ⟨r, conclude_of_error h⟩

/-- All that a command can do; the block it writes fits its buffer. -/
theorem exec_cases (i : Instr) (s : State) :
    (∃ r, exec i s = .next (s.raise r)) ∨
    ∃ n g v, exec i s = .next
        ((i.setLength v (s.setBlock i.destBuf n g)).complete 0#4 0x00000000#32) ∧
      (s.params.Legal → n ≤ i.destBuf.size s.params) := by
  cases i with
  | lock =>
    rcases conclude_shape (P := fun _ => s.msgLen.toNat ≤ s.params.bufBytes) (s := s)
      (w := (s.setBlock .data s.msgLen.toNat
        (fun i => s.operand .msg i ^^^ s.keyByte i)).setDataLen s.msgLen)
      (cs := [keyError s, limitError s.msgLen.toNat s.params.bufBytes,
        rangeError s s.msgLen.toNat s.keyLen.toNat])
      (fun h => (limitError_eq_none_iff _ _).1 (firstError_eq_none_iff.1 h _ (by simp)))
      with h | ⟨h, hn⟩
    · exact .inl h
    · exact .inr ⟨_, _, _, h, fun _ => hn⟩
  | unlock =>
    rcases conclude_shape (P := fun _ => s.dataLen.toNat ≤ s.params.bufBytes) (s := s)
      (w := (s.setBlock .msg s.dataLen.toNat
        (fun i => s.operand .data i ^^^ s.keyByte i)).setMsgLen s.dataLen)
      (cs := [keyError s, limitError s.dataLen.toNat s.params.bufBytes])
      (fun h => (limitError_eq_none_iff _ _).1 (firstError_eq_none_iff.1 h _ (by simp)))
      with h | ⟨h, hn⟩
    · exact .inl h
    · exact .inr ⟨_, _, _, h, fun _ => hn⟩
  | b2b =>
    rcases conclude_shape (P := fun _ => s.dataLen.toNat ≤ s.params.bufBytes) (s := s)
      (w := (s.setBlock .bits (8 * s.dataLen.toNat) (streamBit (s.operand .data))).setBitsLen
        (BitVec.ofNat 16 (8 * s.dataLen.toNat)))
      (cs := [limitError s.dataLen.toNat s.params.bufBytes])
      (fun h => (limitError_eq_none_iff _ _).1 (firstError_eq_none_iff.1 h _ (by simp)))
      with h | ⟨h, hn⟩
    · exact .inl h
    · exact .inr ⟨_, _, _, h, fun _ => Nat.mul_le_mul_left 8 hn⟩
  | embed =>
    rcases conclude_shape (P := fun _ => s.sampleCount.toNat ≤ s.params.sampleMax) (s := s)
      (w := s.setBlock .pixDst s.sampleCount.toNat (fun i =>
        if i < s.bitsLen.toNat then replaceLowBit (s.operand .pixSrc i) (s.operand .bits i)
        else s.operand .pixSrc i))
      (cs := [limitError s.bitsLen.toNat (8 * s.params.bufBytes), sampleLimitError s,
        capacityError s s.bitsLen.toNat])
      (fun h => (sampleLimitError_eq_none_iff _).1 (firstError_eq_none_iff.1 h _ (by simp)))
      with h | ⟨h, hn⟩
    · exact .inl h
    · exact .inr ⟨_, _, 0#16, h, fun _ => hn⟩
  | extract c =>
    rcases conclude_shape (P := fun _ => c ≤ s.params.bufBytes) (s := s)
      (w := (s.setBlock .data c s.sampleByte).setDataLen (BitVec.ofNat 16 c))
      (cs := [limitError c s.params.bufBytes, sampleLimitError s, capacityError s (8 * c)])
      (fun h => (limitError_eq_none_iff _ _).1 (firstError_eq_none_iff.1 h _ (by simp)))
      with h | ⟨h, hn⟩
    · exact .inl h
    · exact .inr ⟨_, _, _, h, fun _ => hn⟩
  | encode =>
    rcases conclude_shape (P := fun _ => s.sampleCount.toNat ≤ s.params.sampleMax) (s := s)
      (w := s.setBlock .pixDst s.sampleCount.toNat (fun i =>
        if i < 8 * (s.msgLen.toNat + 1) then
          replaceLowBit (s.operand .pixSrc i) (streamBit (s.framedByte s.msgLen.toNat) i)
        else s.operand .pixSrc i))
      (cs := [keyError s, messageLengthError s.msgLen.toNat,
        rangeError s s.msgLen.toNat s.keyLen.toNat, sampleLimitError s,
        advisoryError s s.msgLen.toNat, capacityError s (8 * (s.msgLen.toNat + 1))])
      (fun h => (sampleLimitError_eq_none_iff _).1 (firstError_eq_none_iff.1 h _ (by simp)))
      with h | ⟨h, hn⟩
    · exact .inl h
    · exact .inr ⟨_, _, 0#16, h, fun _ => hn⟩
  | decode =>
    rcases conclude_shape (P := fun _ => True) (s := s)
      (w := (s.setBlock .msg (s.sampleByte 0).toNat
        (fun i => s.sampleByte (i + 1) ^^^ s.keyByte i)).setMsgLen ((s.sampleByte 0).setWidth 16))
      (cs := [sampleLimitError s, capacityError s 8,
        capacityError s (8 * ((s.sampleByte 0).toNat + 1)), keyError s])
      (fun _ => trivial)
      with h | ⟨h, -⟩
    · exact .inl h
    · refine .inr ⟨_, _, _, h, fun hp => ?_⟩
      have h8 : (s.sampleByte 0).toNat < 256 := (s.sampleByte 0).isLt
      have := hp.1.1
      show (s.sampleByte 0).toNat ≤ s.params.bufBytes
      omega

end Sys2Proof.Machine
end

