-- ==== Sys2Proof/Laws/Bus.lean ====
section
/-! SUPPORT. Host accesses: the region and the admission of register and buffer offsets, byte lanes, and
what an access changes. -/

namespace Sys2Proof.Machine

/-! ## Offsets -/

@[simp] theorem regOff_toNat (r : Reg) : (regOff r).toNat = r.offset := by cases r <;> rfl

@[simp] theorem regionOf_register (r : Reg) : regionOf r.offset = .registers := by
  cases r <;> rfl

@[simp] theorem regAt_offset (r : Reg) : regAt r.offset = some r := by cases r <;> decide

@[simp] theorem admission_register (p : Params) (r : Reg) :
    admission p (regOff r) .word = none := by
  cases r <;> rfl

/-- With legal parameters every buffer fits its region (R52). -/
theorem Buf.region_of_size {p : Params} (hp : p.Legal) (b : Buf) {i : Nat} (hi : i < b.size p) :
    b.base + i < 2 ^ 32 ∧ regionOf (b.base + i) = .buffer b := by
  obtain ⟨⟨-, h1⟩, ⟨-, h2⟩, -, h3⟩ := hp
  cases b <;> simp only [Buf.base, Buf.size] at * <;> refine ⟨by omega, ?_⟩ <;>
    (unfold regionOf; repeat' (first | rw [if_neg (by omega)] | rw [if_pos (by omega)]))

theorem Buf.base_le_of_regionOf {b : Buf} {a : Nat} (h : regionOf a = .buffer b) : b.base ≤ a := by
  unfold regionOf at h
  repeat' split at h
  all_goals
    first
    | (injection h with h; subst h; simp only [Buf.base]; omega)
    | cases h

theorem elemOff_toNat {p : Params} (hp : p.Legal) (b : Buf) {i : Nat} (hi : i < b.size p) :
    (elemOff b i).toNat = b.base + i := by
  rw [elemOff, BitVec.toNat_ofNat, Nat.mod_eq_of_lt (Buf.region_of_size hp b hi).1]

theorem Width.bytes_pos (width : Width) : 1 ≤ width.bytes := by cases width <;> decide

theorem Buf.base_aligned (b : Buf) (width : Width) : b.base % width.bytes = 0 := by
  cases b <;> cases width <;> rfl

theorem admission_element {p : Params} (hp : p.Legal) (b : Buf) {i : Nat} {width : Width}
    (ha : i % width.bytes = 0) (hi : i + width.bytes ≤ b.size p) :
    admission p (elemOff b i) width = none := by
  have hpos := width.bytes_pos
  have hlt : i < b.size p := by omega
  have hmod : (b.base + i) % width.bytes = 0 := by
    rw [Nat.add_mod, Buf.base_aligned, ha]; simp
  unfold admission
  rw [elemOff_toNat hp b hlt, (Buf.region_of_size hp b hlt).2]
  simp only [hmod, ne_eq, not_true_eq_false, if_false]
  rw [if_pos (by omega)]

/-! ## Byte lanes -/

theorem joinLanes_getLsbD (n : Nat) (f : Nat → Byte) (k : Nat) :
    (joinLanes n f).getLsbD k =
      (decide (k < 8 * n) && decide (k < 32) && (f (k / 8)).getLsbD (k % 8)) := by
  induction n with
  | zero => simp [joinLanes]
  | succ n ih =>
    rw [joinLanes, BitVec.getLsbD_or, ih, BitVec.getLsbD_shiftLeft, BitVec.getLsbD_setWidth]
    by_cases h1 : k < 8 * n
    · simp [h1, show k < 8 * (n + 1) by omega]
    · by_cases h2 : k < 8 * (n + 1)
      · have hd : k / 8 = n := by omega
        have hm : k % 8 = k - 8 * n := by omega
        by_cases h3 : k < 32
        · simp [h1, h2, h3, hd, hm, show k - 8 * n < 32 by omega]
        · simp [h1, h2, h3]
      · have : (f n).getLsbD (k - 8 * n) = false :=
          BitVec.getLsbD_of_ge _ _ (by omega)
        simp [h1, h2, this]

/-- A lane of the joined value is the byte that was put there. -/
theorem joinLanes_lane {n j : Nat} (f : Nat → Byte) (hj : j < n) (hn : n ≤ 4) :
    (joinLanes n f).extractLsb' (8 * j) 8 = f j := by
  refine BitVec.eq_of_getLsbD_eq fun k hk => ?_
  rw [BitVec.getLsbD_extractLsb', joinLanes_getLsbD, show (8 * j + k) / 8 = j by omega,
    show (8 * j + k) % 8 = k by omega]
  simp [hk, show 8 * j + k < 8 * n by omega, show 8 * j + k < 32 by omega]

theorem Width.bytes_le (width : Width) : width.bytes ≤ 4 := by cases width <;> decide

/-! ## Buffer writes of several lanes -/

theorem State.setLanes_cell (s : State) (b : Buf) (i : Nat) (v : Word) (n : Nat) (b' : Buf)
    (p : Nat) : (s.setLanes b i v n).cell b' p =
      if b' = b ∧ i ≤ p ∧ p < i + n then some (b.kept (lane v (p - i))) else s.cell b' p := by
  induction n with
  | zero => simp [State.setLanes, show ¬ (i ≤ p ∧ p < i) by omega]
  | succ n ih =>
    rw [State.setLanes, State.cell_setCell, ih]
    by_cases hp : p = i + n
    · subst hp
      by_cases hb : b' = b <;> simp [hb]
    · by_cases hin : i ≤ p ∧ p < i + n
      · simp [hp, hin.1, hin.2, show p < i + (n + 1) by omega]
      · have : ¬ (i ≤ p ∧ p < i + (n + 1)) := by omega
        simp [hp, hin, this]

@[simp] theorem State.setLanes_params (s : State) (b : Buf) (i : Nat) (v : Word) (n : Nat) :
    (s.setLanes b i v n).params = s.params := by
  induction n with
  | zero => rfl
  | succ n ih => rw [State.setLanes, State.setCell_params, ih]

@[simp] theorem State.setLanes_cmd (s : State) (b : Buf) (i : Nat) (v : Word) (n : Nat) :
    (s.setLanes b i v n).cmd = s.cmd := by
  induction n with
  | zero => rfl
  | succ n ih => rw [State.setLanes, State.setCell_cmd, ih]

@[simp] theorem State.setLanes_status (s : State) (b : Buf) (i : Nat) (v : Word) (n : Nat) :
    (s.setLanes b i v n).status = s.status := by
  induction n with
  | zero => rfl
  | succ n ih => rw [State.setLanes, State.setCell_status, ih]

@[simp] theorem State.setLanes_errInfo (s : State) (b : Buf) (i : Nat) (v : Word) (n : Nat) :
    (s.setLanes b i v n).errInfo = s.errInfo := by
  induction n with
  | zero => rfl
  | succ n ih => rw [State.setLanes, State.setCell_errInfo, ih]

@[simp] theorem State.setLanes_keyLen (s : State) (b : Buf) (i : Nat) (v : Word) (n : Nat) :
    (s.setLanes b i v n).keyLen = s.keyLen := by
  induction n with
  | zero => rfl
  | succ n ih => rw [State.setLanes, State.setCell_keyLen, ih]

@[simp] theorem State.setLanes_msgLen (s : State) (b : Buf) (i : Nat) (v : Word) (n : Nat) :
    (s.setLanes b i v n).msgLen = s.msgLen := by
  induction n with
  | zero => rfl
  | succ n ih => rw [State.setLanes, State.setCell_msgLen, ih]

@[simp] theorem State.setLanes_dataLen (s : State) (b : Buf) (i : Nat) (v : Word) (n : Nat) :
    (s.setLanes b i v n).dataLen = s.dataLen := by
  induction n with
  | zero => rfl
  | succ n ih => rw [State.setLanes, State.setCell_dataLen, ih]

@[simp] theorem State.setLanes_bitsLen (s : State) (b : Buf) (i : Nat) (v : Word) (n : Nat) :
    (s.setLanes b i v n).bitsLen = s.bitsLen := by
  induction n with
  | zero => rfl
  | succ n ih => rw [State.setLanes, State.setCell_bitsLen, ih]

@[simp] theorem State.setLanes_sampleCount (s : State) (b : Buf) (i : Nat) (v : Word) (n : Nat) :
    (s.setLanes b i v n).sampleCount = s.sampleCount := by
  induction n with
  | zero => rfl
  | succ n ih => rw [State.setLanes, State.setCell_sampleCount, ih]

@[simp] theorem State.setLanes_pending (s : State) (b : Buf) (i : Nat) (v : Word) (n : Nat) :
    (s.setLanes b i v n).pending = s.pending := by
  induction n with
  | zero => rfl
  | succ n ih => rw [State.setLanes, State.setCell_pending, ih]

@[simp] theorem State.setLanes_draws (s : State) (b : Buf) (i : Nat) (v : Word) (n : Nat) :
    (s.setLanes b i v n).draws = s.draws := by
  induction n with
  | zero => rfl
  | succ n ih => rw [State.setLanes, State.setCell_draws, ih]

@[simp] theorem State.setLanes_host (s : State) (b : Buf) (i : Nat) (v : Word) (n : Nat) :
    (s.setLanes b i v n).host = s.host := by
  induction n with
  | zero => rfl
  | succ n ih => rw [State.setLanes, State.setCell_host, ih]

@[simp] theorem State.setLanes_reply (s : State) (b : Buf) (i : Nat) (v : Word) (n : Nat) :
    (s.setLanes b i v n).reply = s.reply := by
  induction n with
  | zero => rfl
  | succ n ih => rw [State.setLanes, State.setCell_reply, ih]

@[simp] theorem State.setLanes_turns (s : State) (b : Buf) (i : Nat) (v : Word) (n : Nat) :
    (s.setLanes b i v n).turns = s.turns := by
  induction n with
  | zero => rfl
  | succ n ih => rw [State.setLanes, State.setCell_turns, ih]

/-- A write of lanes inside the buffer keeps the canonical form. -/
theorem State.MemoryOk.setLanes {s : State} (h : s.MemoryOk) (b : Buf) (i : Nat) (v : Word) {n : Nat}
    (hn : i + n ≤ b.size s.params) : (s.setLanes b i v n).MemoryOk := by
  induction n with
  | zero => exact h
  | succ n ih =>
    exact State.MemoryOk.setCell (ih (by omega)) b (by rw [State.setLanes_params]; omega) _

/-- An admitted access of a buffer region stays inside the implemented part. -/
theorem admission_buffer {p : Params} {off : Word} {width : Width} {b : Buf}
    (h : admission p off width = none) (hr : regionOf off.toNat = .buffer b) :
    off.toNat - b.base + width.bytes ≤ b.size p := by
  unfold admission at h
  rw [hr] at h
  split at h
  · cases h
  · split at h
    · rename_i h'
      cases h'
    · rename_i h'
      cases h'
      split at h
      · assumption
      · cases h
    · rename_i h'
      cases h'

/-! ## The end of an access -/

@[simp] theorem State.replied_params (s : State) (v : Word) : (s.replied v).params = s.params := rfl
@[simp] theorem State.replied_cmd (s : State) (v : Word) : (s.replied v).cmd = s.cmd := rfl
@[simp] theorem State.replied_status (s : State) (v : Word) : (s.replied v).status = s.status := rfl
@[simp] theorem State.replied_errInfo (s : State) (v : Word) : (s.replied v).errInfo = s.errInfo := rfl
@[simp] theorem State.replied_keyLen (s : State) (v : Word) : (s.replied v).keyLen = s.keyLen := rfl
@[simp] theorem State.replied_msgLen (s : State) (v : Word) : (s.replied v).msgLen = s.msgLen := rfl
@[simp] theorem State.replied_dataLen (s : State) (v : Word) : (s.replied v).dataLen = s.dataLen := rfl
@[simp] theorem State.replied_bitsLen (s : State) (v : Word) : (s.replied v).bitsLen = s.bitsLen := rfl
@[simp] theorem State.replied_sampleCount (s : State) (v : Word) : (s.replied v).sampleCount = s.sampleCount := rfl
@[simp] theorem State.replied_pending (s : State) (v : Word) : (s.replied v).pending = s.pending := rfl
@[simp] theorem State.replied_draws (s : State) (v : Word) : (s.replied v).draws = s.draws + 1 := rfl
@[simp] theorem State.replied_host (s : State) (v : Word) : (s.replied v).host = s.host := rfl
@[simp] theorem State.replied_reply (s : State) (v : Word) : (s.replied v).reply = some v := rfl
@[simp] theorem State.replied_turns (s : State) (v : Word) : (s.replied v).turns = s.turns := rfl
@[simp] theorem State.replied_cell (s : State) (v : Word) (b : Buf) (i : Nat) :
    (s.replied v).cell b i = s.cell b i := by
  cases b <;> rfl

@[simp] theorem State.replied_bufPending (s : State) (v : Word) (b : Buf) :
    (s.replied v).bufPending b = s.bufPending b := rfl
@[simp] theorem State.replied_regPending (s : State) (v : Word) (r : Reg) :
    (s.replied v).regPending r = s.regPending r := rfl
@[simp] theorem State.replied_regValue (s : State) (v : Word) (r : Reg) :
    (s.replied v).regValue r = s.regValue r := by
  cases r <;> rfl

/-- A lane value depends only on the lanes it joins. -/
theorem joinLanes_congr {n : Nat} {f g : Nat → Byte} (h : ∀ j < n, f j = g j) :
    joinLanes n f = joinLanes n g := by
  induction n with
  | zero => rfl
  | succ n ih => rw [joinLanes, joinLanes, ih fun j hj => h j (by omega), h n (by omega)]

@[simp] theorem State.acknowledged_params (s : State) : s.acknowledged.params = s.params := rfl
@[simp] theorem State.acknowledged_cmd (s : State) : s.acknowledged.cmd = s.cmd := rfl
@[simp] theorem State.acknowledged_status (s : State) : s.acknowledged.status = s.status := rfl
@[simp] theorem State.acknowledged_errInfo (s : State) : s.acknowledged.errInfo = s.errInfo := rfl
@[simp] theorem State.acknowledged_keyLen (s : State) : s.acknowledged.keyLen = s.keyLen := rfl
@[simp] theorem State.acknowledged_msgLen (s : State) : s.acknowledged.msgLen = s.msgLen := rfl
@[simp] theorem State.acknowledged_dataLen (s : State) : s.acknowledged.dataLen = s.dataLen := rfl
@[simp] theorem State.acknowledged_bitsLen (s : State) : s.acknowledged.bitsLen = s.bitsLen := rfl
@[simp] theorem State.acknowledged_sampleCount (s : State) : s.acknowledged.sampleCount = s.sampleCount := rfl
@[simp] theorem State.acknowledged_pending (s : State) : s.acknowledged.pending = s.pending := rfl
@[simp] theorem State.acknowledged_draws (s : State) : s.acknowledged.draws = s.draws := rfl
@[simp] theorem State.acknowledged_host (s : State) : s.acknowledged.host = s.host := rfl
@[simp] theorem State.acknowledged_reply (s : State) : s.acknowledged.reply = none := rfl
@[simp] theorem State.acknowledged_turns (s : State) : s.acknowledged.turns = s.turns := rfl
@[simp] theorem State.acknowledged_cell (s : State) (b : Buf) (i : Nat) :
    s.acknowledged.cell b i = s.cell b i := by
  cases b <;> rfl

/-! ## What an access can do -/

/-- All that a host read can do (R58, R62). -/
theorem hostRead_cases {off : Word} {width : Width} {s t : State}
    (h : hostRead off width s = .next t) :
    admission s.params off width = none ∧
      t = s.replied (s.busRead off width) := by
  unfold hostRead at h
  split at h
  · cases h
  · cases h
    exact ⟨‹_›, rfl⟩

theorem hostRead_of_admitted {off : Word} {width : Width} {s : State}
    (h : admission s.params off width = none) : hostRead off width s =
      .next (s.replied (s.busRead off width)) := by
  simp [hostRead, h]

/-- All that a host write can do (R58). -/
theorem hostWrite_cases {off : Word} {width : Width} {v : Word} {s t : State}
    (h : hostWrite off width v s = .next t) :
    admission s.params off width = none ∧ t = (s.busWrite off width v).acknowledged := by
  unfold hostWrite at h
  split at h
  · cases h
  · cases h
    exact ⟨‹_›, rfl⟩

theorem hostWrite_of_admitted {off : Word} {width : Width} {v : Word} {s : State}
    (h : admission s.params off width = none) :
    hostWrite off width v s = .next (s.busWrite off width v).acknowledged := by
  simp [hostWrite, h]

theorem State.busWrite_of_idle {s : State} (h : s.pending = none) (off : Word) (width : Width)
    (v : Word) : s.busWrite off width v = s.idleWrite off width v := by
  simp [State.busWrite, h]

theorem State.busWrite_of_pending {s : State} (h : s.pending ≠ none) (off : Word) (width : Width)
    (v : Word) : s.busWrite off width v = s.pendingWrite off v := by
  cases hp : s.pending with
  | none => exact absurd hp h
  | some w => simp [State.busWrite, hp]

theorem State.idleWrite_register (s : State) (r : Reg) (width : Width) (v : Word) :
    s.idleWrite (regOff r) width v = s.writeReg r v := by
  simp [State.idleWrite]

theorem State.busRead_register (s : State) (r : Reg) (width : Width) :
    s.busRead (regOff r) width = s.hostReg r := by
  simp [State.busRead]

theorem State.idleWrite_element {s : State} (hp : s.params.Legal) (b : Buf) {i : Nat}
    (hi : i < b.size s.params) (width : Width) (v : Word) :
    s.idleWrite (elemOff b i) width v = s.setLanes b i v width.bytes := by
  rw [State.idleWrite, elemOff_toNat hp b hi, (Buf.region_of_size hp b hi).2]
  simp

theorem State.busRead_element {s : State} (hp : s.params.Legal) (b : Buf) {i : Nat}
    (hi : i < b.size s.params) (width : Width) :
    s.busRead (elemOff b i) width = joinLanes width.bytes (fun j => s.hostElement b (i + j)) := by
  rw [State.busRead, elemOff_toNat hp b hi, (Buf.region_of_size hp b hi).2]
  simp

/-! ## Reads outside the pending write set -/

/-- Only the three length registers that commands write can be in a write set (R195). -/
theorem State.regPending_eq_false (s : State) {r : Reg}
    (h : r ≠ .msgLen ∧ r ≠ .dataLen ∧ r ≠ .bitsLen) : s.regPending r = false := by
  unfold State.regPending
  split
  · rename_i i _
    cases i <;> simp [Instr.destReg, Ne.symm h.1, Ne.symm h.2.1, Ne.symm h.2.2]
  · rfl

/-- A read of a register outside the pending write set returns its value. -/
theorem hostRead_register {s : State} {r : Reg} (h : s.regPending r = false) :
    hostRead (regOff r) .word s = .next (s.replied (s.regValue r)) := by
  rw [hostRead_of_admitted (admission_register _ _), State.busRead_register, State.hostReg, h]
  rfl

/-- A read of elements outside the pending write set returns their operands, lane by lane. -/
theorem hostRead_elements {s : State} (hp : s.params.Legal) {b : Buf} (hb : s.bufPending b = false)
    {i : Nat} {width : Width} (ha : i % width.bytes = 0) (hi : i + width.bytes ≤ b.size s.params) :
    hostRead (elemOff b i) width s =
      .next (s.replied (joinLanes width.bytes (fun j => s.operand b (i + j)))) := by
  have hpos := width.bytes_pos
  rw [hostRead_of_admitted (admission_element hp b ha hi), State.busRead_element hp b (by omega)]
  simp [State.hostElement, hb]

theorem State.bufPending_of_idle {s : State} (h : s.pending = none) (b : Buf) :
    s.bufPending b = false := by
  simp [State.bufPending, State.pendingInstr, h]

end Sys2Proof.Machine
end

