-- ==== Sys2Proof/Laws/PerInstr.lean ====
section
/-! SUPPORT. Facts about every command as syntax, one lemma per constructor. -/

namespace Sys2Proof.Laws.OwnRow

/-- The command's word matches the row of R81 with its mnemonic, and no other row. -/
def Statement (i : Instr) : Prop :=
  i.wellFormed = true →
    ((opcodeRows.filter (fun r => r.covers (encode i))).map (fun r => r.mnemonic)) = [i.mnemonic]

theorem lock : Statement .lock := fun _ => by decide

theorem unlock : Statement .unlock := fun _ => by decide

theorem b2b : Statement .b2b := fun _ => by decide

theorem embed : Statement .embed := fun _ => by decide

/-- A word whose low half is 5 matches the row of `EXTRACT` alone. -/
theorem only_extract_covers (c : Half) :
    (opcodeRows.filter (fun r => r.covers (formatC c))).map (fun r => r.mnemonic) = ["EXTRACT"] := by
  have hlow : formatC c &&& 0x0000FFFF#32 = 0x00000005#32 := by
    refine BitVec.eq_of_getLsbD_eq fun k hk => ?_
    simp only [formatC, BitVec.getLsbD_and, BitVec.getLsbD_append]
    interval_cases k <;> simp
  have hrow : ∀ p : Word, p &&& 0x0000FFFF#32 ≠ 0x00000005#32 →
      (formatC c &&& 0xFFFFFFFF#32 == p) = false := by
    intro p hp
    rw [beq_eq_false_iff_ne]
    rintro rfl
    rw [BitVec.and_assoc] at hp
    exact hp hlow
  simp only [opcodeRows, OpcodeRow.covers, List.filter_cons, List.filter_nil,
    hrow 0x00000001#32 (by decide), hrow 0x00000002#32 (by decide), hrow 0x00000003#32 (by decide),
    hrow 0x00000004#32 (by decide), hrow 0x00000006#32 (by decide), hrow 0x00000007#32 (by decide),
    hlow]
  rfl

theorem extract (count : Nat) : Statement (.extract count) := fun _ => only_extract_covers _

theorem encode : Statement .encode := fun _ => by decide

theorem decode : Statement .decode := fun _ => by decide

end Sys2Proof.Laws.OwnRow
end

