-- ==== Sys2Proof/Laws/Step.lean ====
section
/-! SUPPORT. Whose step comes next, and everything a step of the host can do. -/

namespace Sys2Proof.Machine

theorem step_of_idle {s : State} (h : s.pending = none) : step s = hostTurn s := by
  simp [step, machineTurn, h]

theorem step_of_core {s : State} {w : Word} (h : s.pending = some w) (hm : s.mover = .core) :
    step s = coreTurn w s.takeTurn := by
  simp [step, machineTurn, h, hm]

theorem step_of_host {s : State} {w : Word} (h : s.pending = some w) (hm : s.mover = .host) :
    step s = hostTurn s.takeTurn := by
  simp [step, machineTurn, h, hm]

/-- The core moves where the host's program has ended, and where the schedule does not name the host. -/
theorem State.mover_eq_core_iff (s : State) :
    s.mover = .core ↔ s.host = [] ∨ s.turns.head? ≠ some .host := by
  unfold State.mover
  split
  · simp [*]
  · rename_i hx
    refine ⟨fun _ => ?_, fun _ => rfl⟩
    cases hh : s.host with
    | nil => exact .inl rfl
    | cons a l =>
      cases ht : s.turns with
      | nil => simp
      | cons b m => cases b <;> simp_all

theorem State.mover_eq_host {s : State} (hh : s.host ≠ []) (ht : s.turns.head? = some .host) :
    s.mover = .host := by
  cases hm : s.mover with
  | host => rfl
  | core => rcases s.mover_eq_core_iff.1 hm with h | h <;> contradiction

/-- All that a step of the host can do: nothing, a read, a write, or reset. -/
theorem hostTurn_cases {s t : State} (h : hostTurn s = .next t) :
    (s.host = [] ∧ t = s) ∨
    (∃ hs v, t = State.replied { s with host := hs } v) ∨
    (∃ off width v rest, s.host = .write off width v :: rest ∧
      admission s.params off width = none ∧
      t = (State.busWrite { s with host := rest } off width v).acknowledged) ∨
    (∃ rest, s.host = .reset :: rest ∧ t = State.resetInput { s with host := rest }) := by
  unfold hostTurn at h
  split at h
  · cases h
    exact .inl ⟨‹_›, rfl⟩
  · exact .inr (.inl ⟨_, _, (hostRead_cases h).2⟩)
  · exact .inr (.inr (.inl ⟨_, _, _, _, ‹_›, (hostWrite_cases h).1, (hostWrite_cases h).2⟩))
  · split at h <;> exact .inr (.inl ⟨_, _, (hostRead_cases h).2⟩)
  · exact .inr (.inl ⟨_, _, (hostRead_cases h).2⟩)
  · cases h
    exact .inr (.inr (.inr ⟨_, ‹_›, rfl⟩))

end Sys2Proof.Machine
end

