-- ==== Sys2Proof/Tests/Slice0.lean ====
section
/-! SUPPORT. Tests, and a witness for the hypotheses of each statement. Expected values: the vectors of
95_test_vectors.md (named in each comment), or the spec's encodings written out bit by bit. -/

namespace Sys2Proof.Tests

open Sys2Proof.Machine

/-! ## Small states -/

/-- Buffer contents that hold the values from index 0 on. -/
def filled {w : Nat} (vs : List (BitVec w)) : Memory w :=
  (List.range vs.length).map (fun i => (i, vs.getD i 0))

/-- `n` times the value. -/
def times {w : Nat} (n : Nat) (v : BitVec w) : Memory w := filled (List.replicate n v)

/-- The next state, where there is one. -/
def nextState (o : Host.Outcome State Fault Refusal) : Option State :=
  match o with
  | .next t => some t
  | .fault _ => none
  | .refused _ => none

/-- The data a host read returns. -/
def readData (off : Word) (width : Width) (s : State) : Option Word :=
  (nextState (hostRead off width s)).bind (fun t => t.reply)

/-- V1: the message "HI", the key "K", 24 zero samples. -/
def v1 : State :=
  { State.reset with
    msgMem := filled [0x48#8, 0x49#8], msgLen := 2#16, keyMem := filled [0x4B#8], keyLen := 1#16,
    pixSrc := times 24 0x00#8, sampleCount := 24#32 }

/-- The samples V1 ends with. -/
def v1Samples : Memory 8 :=
  filled [0#8, 0#8, 0#8, 0#8, 0#8, 0#8, 1#8, 0#8, 0#8, 0#8, 0#8, 0#8, 0#8, 0#8, 1#8, 1#8,
    0#8, 0#8, 0#8, 0#8, 0#8, 0#8, 1#8, 0#8]

/-- V1 after the host's copy: ready for `DECODE` and `EXTRACT`. -/
def v1Stego : State := { v1 with pixSrc := v1Samples }

/-! ## Command words -/

-- R80, R81: `COUNT` | `RSV` | `OP`, written out bit by bit.
theorem test_word_lock :
    decode 0b0000000000000000_000000000000_0001#32 = .legal .lock := by decide
theorem test_word_unlock :
    decode 0b0000000000000000_000000000000_0010#32 = .legal .unlock := by decide
theorem test_word_b2b :
    decode 0b0000000000000000_000000000000_0011#32 = .legal .b2b := by decide
theorem test_word_embed :
    decode 0b0000000000000000_000000000000_0100#32 = .legal .embed := by decide
theorem test_word_extract :
    decode 0b0000000100000010_000000000000_0101#32 = .legal (.extract 258) := by decide
theorem test_word_encode :
    decode 0b0000000000000000_000000000000_0110#32 = .legal .encode := by decide
theorem test_word_decode :
    decode 0b0000000000000000_000000000000_0111#32 = .legal .decode := by decide

-- 95 §2.8: the illegal words, one for each ground of R83.
theorem test_word_illegal :
    decode 0x00000008#32 = .illegal .reservedOpcode ∧
    decode 0x0000000F#32 = .illegal .reservedOpcode ∧
    decode 0x00000010#32 = .illegal .reservedField ∧
    decode 0x00000015#32 = .illegal .reservedField ∧
    decode 0x00010001#32 = .illegal .countNotZero := by decide

-- R57: the bytes of the word of `EXTRACT 3`, the least significant first.
theorem test_bytes_extract :
    decodeBytes [0x05#8, 0x00#8, 0x03#8, 0x00#8] = .legal (.extract 3) := by decide

theorem test_table_word : decodeTableWord 32 0x00030005 = some (.extract 3) := by decide

/-! ## WellFormed smoke: the one check refuses an ill-formed term -/

theorem test_wellFormed_refuses_count : (Instr.extract 65536).wellFormed = false := by decide
theorem test_wellFormed_admits_count : (Instr.extract 65535).wellFormed = true := by decide

/-! ## Commands -/

-- LK1: the key cycles with period 2.
theorem test_lock_cycles_key :
    (nextState (exec .lock { State.reset with
      msgMem := filled [0x41#8, 0x42#8, 0x43#8, 0x44#8, 0x45#8], msgLen := 5#16,
      keyMem := filled [0x61#8, 0x62#8], keyLen := 2#16 })).map
        (fun t => (t.dataMem, t.dataLen, t.status.word)) =
    some (filled [0x20#8, 0x20#8, 0x22#8, 0x26#8, 0x24#8], 5#16, 0x00000002#32) := by decide

-- LK9: an unused key byte is range-checked.
theorem test_lock_checks_every_key_byte :
    (nextState (exec .lock { State.reset with
      msgMem := filled [0x48#8], msgLen := 1#16,
      keyMem := filled [0x4B#8, 0x00#8, 0xFF#8], keyLen := 3#16 })).map
        (fun t => (t.dataMem, t.errInfo, t.status.word)) =
    some ([], 0x00010002#32, 0x00000206#32) := by decide

-- UL6: the inverse of LK1.
theorem test_unlock_inverts_lock :
    (nextState (exec .unlock { State.reset with
      dataMem := filled [0x20#8, 0x20#8, 0x22#8, 0x26#8, 0x24#8], dataLen := 5#16,
      keyMem := filled [0x61#8, 0x62#8], keyLen := 2#16 })).map (fun t => (t.msgMem, t.msgLen)) =
    some (filled [0x41#8, 0x42#8, 0x43#8, 0x44#8, 0x45#8], 5#16) := by decide

-- UL3: no range check on the key or the output.
theorem test_unlock_admits_ff :
    (nextState (exec .unlock { State.reset with
      dataMem := filled [0x00#8], dataLen := 1#16, keyMem := filled [0xFF#8], keyLen := 1#16 })).map
        (fun t => (t.msgMem, t.status.word)) =
    some (filled [0xFF#8], 0x00000002#32) := by decide

-- BB1.
theorem test_b2b_msb_first :
    (nextState (exec .b2b { State.reset with dataMem := filled [0xA5#8], dataLen := 1#16 })).map
      (fun t => (t.bitsMem, t.bitsLen)) =
    some (filled [1#1, 0#1, 1#1, 0#1, 0#1, 1#1, 0#1, 1#1], 8#16) := by decide

-- BB5.
theorem test_b2b_limit :
    (nextState (exec .b2b { State.reset with dataLen := 257#16 })).map
      (fun t => (t.errInfo, t.status.word)) = some (257#32, 0x00000606#32) := by decide

-- EM2: bits replaced in two samples, two samples copied.
theorem test_embed_replaces_and_copies :
    (nextState (exec .embed { State.reset with
      pixSrc := filled [0x10#8, 0x11#8, 0x12#8, 0x13#8], sampleCount := 4#32,
      bitsMem := filled [1#1, 0#1], bitsLen := 2#16, pixDst := times 6 0xEE#8 })).map
        (fun t => t.pixDst) =
    some (filled [0x11#8, 0x10#8, 0x12#8, 0x13#8, 0xEE#8, 0xEE#8]) := by decide

-- EM4: one bit too many.
theorem test_embed_capacity :
    (nextState (exec .embed { State.reset with
      pixSrc := times 8 0x00#8, sampleCount := 8#32, bitsMem := times 9 1#1, bitsLen := 9#16,
      pixDst := times 8 0xEE#8 })).map (fun t => (t.pixDst, t.errInfo, t.status.word)) =
    some (times 8 0xEE#8, 1#32, 0x00000406#32) := by decide

-- EX2: bits 7 to 1 are ignored.
theorem test_extract_packs_msb_first :
    (nextState (exec (.extract 1) { State.reset with
      pixSrc := filled [0xFF#8, 0xFE#8, 0xFF#8, 0xFE#8, 0xFE#8, 0xFF#8, 0xFF#8, 0xFE#8],
      sampleCount := 8#32 })).map (fun t => (t.dataMem, t.dataLen)) =
    some (filled [0xA6#8], 1#16) := by decide

-- EX4.
theorem test_extract_capacity :
    (nextState (exec (.extract 1) { State.reset with
      pixSrc := times 7 0x00#8, sampleCount := 7#32 })).map
        (fun t => (t.errInfo, t.status.word)) = some (0#32, 0x00000406#32) := by decide

-- EN12: the frame `[02, 4A, 49]`.
theorem test_encode_frame :
    (nextState (exec .encode { v1 with msgMem := filled [0x01#8, 0x02#8] })).map
      (fun t => (t.pixDst, t.dataLen, t.bitsLen)) =
    some (filled [0#8, 0#8, 0#8, 0#8, 0#8, 0#8, 1#8, 0#8, 0#8, 1#8, 0#8, 0#8, 1#8, 0#8, 1#8, 0#8,
      0#8, 1#8, 0#8, 0#8, 1#8, 0#8, 0#8, 1#8], 0#16, 0#16) := by decide

-- EN3: the advisory check passes, the embed check fails.
theorem test_encode_corner :
    (nextState (exec .encode { v1 with
      msgMem := filled [0x01#8, 0x02#8, 0x03#8], msgLen := 3#16 })).map
        (fun t => (t.pixDst, t.errInfo, t.status.word)) =
    some ([], 3#32, 0x00000406#32) := by decide

-- DC8: the second key byte is wrong, and nothing reports it.
theorem test_decode_wrong_key :
    (nextState (exec .decode { v1Stego with
      keyMem := filled [0x4B#8, 0x01#8], keyLen := 2#16 })).map
        (fun t => (t.msgMem, t.msgLen, t.status.word)) =
    some (filled [0x48#8, 0x03#8], 2#16, 0x00000002#32) := by decide

-- DC6: the length byte asks for more than there is.
theorem test_decode_capacity :
    (nextState (exec .decode { v1 with
      pixSrc := times 16 0x01#8, sampleCount := 16#32, keyMem := filled [0x00#8] })).map
        (fun t => (t.msgMem, t.errInfo, t.status.word)) =
    some (filled [0x48#8, 0x49#8], 2#32, 0x00000406#32) := by decide

-- 95 §2.8: `0x8000_0006` completes with `IllegalCommand` and the word.
theorem test_illegal_word_step :
    (nextState (step (State.reset.withFetchWord 32 0x80000006))).map
      (fun t => (t.cmd, t.errInfo, t.status.word, t.pending)) =
    some (0x80000006#32, 0x80000006#32, 0x00000506#32, none) := by decide

/-! ## Host accesses -/

-- HI3, one step: the write keeps the low half.
theorem test_length_write :
    (nextState (hostWrite (regOff .keyLen) .word 0x12345678#32 State.reset)).map
      (fun t => t.keyLen) = some 0x5678#16 := by decide

-- HI5 and HI6, their reads.
theorem test_little_endian :
    readData 0x00002000#32 .half v1 = some 0x00004948#32 ∧
    readData 0x00002001#32 .byte v1 = some 0x00000049#32 := by decide

-- HI8: one cell per lane.
theorem test_bits_lanes :
    (nextState (hostWrite 0x00004000#32 .word 0x01000100#32 State.reset)).map
      (fun t => t.bitsMem) = some (filled [0#1, 1#1, 0#1, 1#1]) := by decide

-- HI9 to HI12: the four kinds of bus error.
theorem test_bus_errors :
    hostRead 0x00000008#32 .half State.reset =
      .fault (.hostAccessFault 0x008#32 .half .registerWidth) ∧
    hostRead 0x00002002#32 .word State.reset =
      .fault (.hostAccessFault 0x2002#32 .word .misaligned) ∧
    hostRead 0x0000C000#32 .byte State.reset =
      .fault (.hostAccessFault 0xC000#32 .byte .unmapped) ∧
    hostRead 0x00002100#32 .byte State.reset =
      .fault (.hostAccessFault 0x2100#32 .byte .outsideBuffer) := ⟨rfl, rfl, rfl, rfl⟩

-- HI14: dropped while `LOCK` is pending.
theorem test_write_dropped :
    (nextState (hostWrite (regOff .keyLen) .word 5#32 (v1.accept 0x00000001#32))).map
      (fun t => (t.keyLen, t.status.word)) = some (1#16, 0x00000009#32) := by decide

-- P3's race: the schedule decides whether the host's write or the core moves.
theorem test_schedule_decides :
    (nextState (step { v1.accept 0x00000006#32 with
      host := [.write (regOff .msgLen) .word 3#32], turns := [.host] })).map
        (fun t => (t.msgLen, t.status.ovr, t.pending)) = some (2#16, true, some 6#32) ∧
    (nextState (step { v1.accept 0x00000006#32 with
      host := [.write (regOff .msgLen) .word 3#32], turns := [.core] })).map
        (fun t => (t.status.ovr, t.pending)) = some (false, none) := by decide

theorem reset_inv : State.reset.Inv := by decide

/-! ## Witnesses: for each statement with hypotheses, a state and operands that meet all of them -/

theorem witness_EncodedCommandDecodesToItself :
    (Instr.extract 65535).wellFormed = true ∧ (Instr.extract 0).wellFormed = true ∧
    Instr.decode.wellFormed = true := by decide

theorem witness_OnlyItsOwnWordDecodesToACommand :
    decode 0xFFFF0005#32 = .legal (.extract 65535) := by decide

theorem witness_CommandIsExactlyFourBytes :
    [0x01#8, 0x00#8, 0x00#8].length ≠ 4 ∧ [0x01#8, 0#8, 0#8, 0#8, 0#8].length ≠ 4 := by decide

theorem witness_IllegalWordsCompleteWithIllegalCommand :
    (∃ why, decode 0x00010001#32 = .illegal why) ∧ (∃ why, decode 0x00000000#32 = .illegal why) ∧
    (∃ why, decode 0x00000008#32 = .illegal why) ∧ (∃ why, decode 0x00008005#32 = .illegal why) ∧
    State.reset.pending = none ∧
    (State.reset.accept 0x00000008#32).pending = some 0x00000008#32 ∧
    (State.reset.accept 0x00000008#32).host = [] :=
  ⟨⟨_, rfl⟩, ⟨_, rfl⟩, ⟨_, rfl⟩, ⟨_, rfl⟩, rfl, rfl, rfl⟩

theorem witness_CmdWriteIsAcceptedWhenIdle :
    State.reset.pending = none ∧ (v1.accept 0x00000006#32).pending ≠ none := by decide

theorem witness_StepPerformsThePendingCommand :
    (v1.accept 6#32).pending = some 6#32 ∧ decode 6#32 = .legal .encode ∧
    (v1.accept 6#32).host = [] ∧
    { v1.accept 6#32 with host := [.wait], turns := [.core] }.turns.head? ≠ some .host ∧
    0xFFFF0005 < 2 ^ 32 ∧ decode (BitVec.ofNat 32 0xFFFF0005) = .legal (.extract 65535) := by decide

theorem witness_ErrorCompletionWritesOnlyStatus :
    ∃ t, exec .lock State.reset = .next t ∧ t.status.err = true := ⟨_, rfl, by decide⟩

theorem witness_CommandsWriteOnlyTheirWriteSet :
    (∃ t, exec .lock v1 = .next t) ∧ ∃ t, exec .embed v1 = .next t := ⟨⟨_, rfl⟩, _, rfl⟩

theorem witness_FramingCommandsKeepIntermediatesInternal :
    (∃ t, exec .encode v1 = .next t) ∧ ∃ t, exec .decode v1Stego = .next t := ⟨⟨_, rfl⟩, _, rfl⟩

theorem witness_LockEncryptsTheMessage :
    1 ≤ v1.keyLen.toNat ∧ v1.keyLen.toNat ≤ v1.params.keyMax ∧
    v1.msgLen.toNat ≤ v1.params.bufBytes ∧
    (∀ i < v1.msgLen.toNat, v1.operand .msg i ≠ 0xFF#8) ∧
    (∀ j < v1.keyLen.toNat, v1.operand .key j ≠ 0xFF#8) := by decide

/-- V1a's result, with a third byte that unlocks to `0xFF`. -/
def locked : State := { v1 with dataMem := filled [0x03#8, 0x02#8, 0xB4#8], dataLen := 2#16 }

theorem witness_UnlockDecryptsTheData :
    1 ≤ locked.keyLen.toNat ∧ locked.keyLen.toNat ≤ locked.params.keyMax ∧
    locked.dataLen.toNat ≤ locked.params.bufBytes := by decide

theorem witness_B2bExpandsBytesMsbFirst :
    locked.params.Legal ∧ locked.dataLen.toNat ≤ locked.params.bufBytes := by decide

/-- Eight samples and as many bits (EM3). -/
def embedFull : State :=
  { State.reset with
    pixSrc := times 8 0x00#8, sampleCount := 8#32, bitsMem := times 8 1#1, bitsLen := 8#16 }

theorem witness_EmbedReplacesOnlyLowBits :
    embedFull.bitsLen.toNat ≤ 8 * embedFull.params.bufBytes ∧
    embedFull.sampleCount.toNat ≤ embedFull.params.sampleMax ∧
    embedFull.bitsLen.toNat ≤ embedFull.sampleCount.toNat := by decide

theorem witness_ExtractPacksLowBitsMsbFirst :
    v1Stego.params.Legal ∧ 3 ≤ v1Stego.params.bufBytes ∧
    v1Stego.sampleCount.toNat ≤ v1Stego.params.sampleMax ∧
    8 * 3 ≤ v1Stego.sampleCount.toNat := by decide

theorem witness_EncodeEmbedsTheFrame :
    1 ≤ v1.keyLen.toNat ∧ v1.keyLen.toNat ≤ v1.params.keyMax ∧ v1.msgLen.toNat ≤ 255 ∧
    (∀ i < v1.msgLen.toNat, v1.operand .msg i ≠ 0xFF#8) ∧
    (∀ j < v1.keyLen.toNat, v1.operand .key j ≠ 0xFF#8) ∧
    v1.sampleCount.toNat ≤ v1.params.sampleMax ∧
    8 * (v1.msgLen.toNat + 1) ≤ v1.sampleCount.toNat := by decide

theorem witness_DecodeUnlocksTheFrame :
    (∀ j < 8, (0x02#8).getLsbD (7 - j) = (v1Stego.operand .pixSrc j).getLsbD 0) ∧
    v1Stego.sampleCount.toNat ≤ v1Stego.params.sampleMax ∧
    8 * ((0x02#8).toNat + 1) ≤ v1Stego.sampleCount.toNat ∧
    1 ≤ v1Stego.keyLen.toNat ∧ v1Stego.keyLen.toNat ≤ v1Stego.params.keyMax := by decide

theorem witness_KeyAndLengthErrorsComeFirst :
    State.reset.keyLen.toNat = 0 ∧
    { State.reset with keyLen := 257#16 }.keyLen.toNat ≠ 0 ∧
    State.reset.params.keyMax < { State.reset with keyLen := 257#16 }.keyLen.toNat ∧
    1 ≤ v1.keyLen.toNat ∧ v1.keyLen.toNat ≤ v1.params.keyMax ∧
    v1.params.bufBytes < { v1 with msgLen := 257#16 }.msgLen.toNat ∧
    v1.params.bufBytes < { v1 with dataLen := 257#16 }.dataLen.toNat ∧
    255 < { v1 with msgLen := 256#16 }.msgLen.toNat := by decide

/-- LK8 and LK9 in one: `0xFF` at message index 1 where `msgLen` is 2, at key index 2. -/
def unsupported : State :=
  { State.reset with
    msgMem := filled [0x48#8, 0xFF#8], msgLen := 2#16,
    keyMem := filled [0x4B#8, 0x00#8, 0xFF#8], keyLen := 3#16 }

theorem witness_RangeCheckReportsTheFirstUnsupportedByte :
    (unsupported.msgLen.toNat ≤ unsupported.params.bufBytes ∧ unsupported.msgLen.toNat ≤ 255 ∧
      1 ≤ unsupported.keyLen.toNat ∧ unsupported.keyLen.toNat ≤ unsupported.params.keyMax) ∧
    (1 < unsupported.msgLen.toNat ∧ unsupported.operand .msg 1 = 0xFF#8 ∧
      ∀ q < 1, unsupported.operand .msg q ≠ 0xFF#8) ∧
    (2 < unsupported.keyLen.toNat ∧
      (∀ q < { unsupported with msgLen := 1#16 }.msgLen.toNat,
        State.operand { unsupported with msgLen := 1#16 } .msg q ≠ 0xFF#8) ∧
      unsupported.operand .key 2 = 0xFF#8 ∧ ∀ q < 2, unsupported.operand .key q ≠ 0xFF#8) ∧
    Instr.unlock ≠ .lock ∧ Instr.unlock ≠ .encode ∧ ∃ t, exec .unlock locked = .next t :=
  ⟨by decide, by decide, by decide, by decide, by decide, _, rfl⟩

theorem witness_BitPlaneLimitsAreReported :
    State.reset.params.bufBytes < { State.reset with dataLen := 257#16 }.dataLen.toNat ∧
    8 * State.reset.params.bufBytes < { State.reset with bitsLen := 2049#16 }.bitsLen.toNat ∧
    State.reset.params.bufBytes < 257 ∧
    State.reset.params.sampleMax < { State.reset with sampleCount := 4097#32 }.sampleCount.toNat ∧
    { State.reset with bitsLen := 2048#16 }.bitsLen.toNat ≤ 8 * State.reset.params.bufBytes ∧
    256 ≤ State.reset.params.bufBytes := by decide

theorem witness_CapacityBoundaryIsExact :
    embedFull.sampleCount.toNat ≤ embedFull.params.sampleMax ∧
    embedFull.bitsLen.toNat ≤ 8 * embedFull.params.bufBytes ∧
    embedFull.bitsLen.toNat ≤ embedFull.sampleCount.toNat ∧
    { embedFull with bitsLen := 9#16 }.bitsLen.toNat ≤ 8 * embedFull.params.bufBytes ∧
    embedFull.sampleCount.toNat < { embedFull with bitsLen := 9#16 }.bitsLen.toNat ∧
    1 ≤ embedFull.params.bufBytes ∧ 8 * 1 ≤ embedFull.sampleCount.toNat ∧
    { embedFull with sampleCount := 7#32 }.sampleCount.toNat < 8 * 1 := by decide

theorem witness_EncodeRejectsAFrameThatDoesNotFit :
    (1 ≤ v1.keyLen.toNat ∧ v1.keyLen.toNat ≤ v1.params.keyMax ∧ v1.msgLen.toNat ≤ 255 ∧
      (∀ i < v1.msgLen.toNat, v1.operand .msg i ≠ 0xFF#8) ∧
      ∀ j < v1.keyLen.toNat, v1.operand .key j ≠ 0xFF#8) ∧
    v1.params.sampleMax < { v1 with sampleCount := 4097#32 }.sampleCount.toNat ∧
    { v1 with sampleCount := 23#32 }.sampleCount.toNat ≤ v1.params.sampleMax ∧
    { v1 with sampleCount := 23#32 }.sampleCount.toNat < 8 * (v1.msgLen.toNat + 1) := by decide

theorem witness_DecodeChecksCapacityBeforeKey :
    v1Stego.sampleCount.toNat ≤ v1Stego.params.sampleMax ∧
    (∀ j < 8, (0x02#8).getLsbD (7 - j) = (v1Stego.operand .pixSrc j).getLsbD 0) ∧
    { v1Stego with sampleCount := 23#32 }.sampleCount.toNat < 8 * ((0x02#8).toNat + 1) ∧
    8 * ((0x02#8).toNat + 1) ≤ v1Stego.sampleCount.toNat ∧
    { v1Stego with keyLen := 0#16 }.keyLen.toNat = 0 ∧
    { v1Stego with keyLen := 257#16 }.keyLen.toNat ≠ 0 ∧
    v1Stego.params.keyMax < { v1Stego with keyLen := 257#16 }.keyLen.toNat := by decide

theorem witness_LongestEncodableMessage :
    1 ≤ v1.keyLen.toNat ∧ v1.keyLen.toNat ≤ v1.params.keyMax ∧
    (∀ i < v1.msgLen.toNat, v1.operand .msg i ≠ 0xFF#8) ∧
    (∀ j < v1.keyLen.toNat, v1.operand .key j ≠ 0xFF#8) ∧
    v1.sampleCount.toNat ≤ v1.params.sampleMax := by decide

theorem witness_UnlockAfterLockReturnsTheMessage :
    v1.Written .key v1.keyLen.toNat ∧ v1.Written .msg v1.msgLen.toNat ∧
    ∃ t, exec .lock v1 = .next t ∧ t.status.err = false := ⟨by decide, by decide, _, rfl, by decide⟩

theorem witness_LockAfterUnlockReturnsTheDataUnlessFF :
    (locked.Written .key locked.keyLen.toNat ∧ locked.Written .data locked.dataLen.toNat ∧
      ∃ t, exec .unlock locked = .next t ∧ t.status.err = false ∧
        (∀ i < locked.dataLen.toNat, t.cell .msg i ≠ some 0xFF#8) ∧
        ∀ j < locked.keyLen.toNat, locked.cell .key j ≠ some 0xFF#8) ∧
    (State.Written { locked with dataLen := 3#16 } .data 3 ∧
      ∃ t, exec .unlock { locked with dataLen := 3#16 } = .next t ∧ t.status.err = false ∧
        ∃ i < 3, t.cell .msg i = some 0xFF#8) ∧
    (State.Written { locked with keyMem := filled [0xFF#8] } .key 1 ∧
      ∃ t, exec .unlock { locked with keyMem := filled [0xFF#8] } = .next t ∧
        t.status.err = false ∧
        ∃ j < 1, State.cell { locked with keyMem := filled [0xFF#8] } .key j = some 0xFF#8) :=
  ⟨⟨by decide, by decide, _, rfl, by decide, by decide, by decide⟩,
   ⟨by decide, _, rfl, by decide, 2, by decide, by decide⟩,
   ⟨by decide, _, rfl, by decide, 0, by decide, by decide⟩⟩

/-- The frame of V1 in `DATA_MEM`, and samples enough for it. -/
def framed : State := { v1 with dataMem := filled [0x02#8, 0x03#8, 0x02#8], dataLen := 3#16 }

/-- The state after the host has copied the samples of `PIX_DST` to `PIX_SRC`. -/
def copied (t : State) : State := { t with pixSrc := t.pixDst }

theorem witness_EmbedExtractRoundTrip :
    framed.params.Legal ∧ framed.dataLen.toNat ≤ framed.params.bufBytes ∧
    8 * framed.dataLen.toNat ≤ framed.sampleCount.toNat ∧
    framed.sampleCount.toNat ≤ framed.params.sampleMax ∧
    framed.Written .data framed.dataLen.toNat ∧
    ∃ t, exec .b2b framed = .next t ∧ ∃ u, exec .embed t = .next u ∧
      (copied u).params = u.params ∧ (copied u).sampleCount = u.sampleCount ∧
      ∀ p < u.sampleCount.toNat, (copied u).cell .pixSrc p = u.cell .pixDst p :=
  ⟨by decide, by decide, by decide, by decide, by decide, _, rfl, _, rfl, rfl, rfl, fun _ _ => rfl⟩

theorem witness_DecodeAfterEncodeReturnsTheMessage :
    v1.Written .key v1.keyLen.toNat ∧ v1.Written .msg v1.msgLen.toNat ∧
    ∃ t, exec .encode v1 = .next t ∧ t.status.err = false ∧
      (copied t).params = t.params ∧ (copied t).sampleCount = t.sampleCount ∧
      (copied t).keyLen = v1.keyLen ∧
      (∀ p < v1.sampleCount.toNat, (copied t).cell .pixSrc p = t.cell .pixDst p) ∧
      ∀ j < v1.keyLen.toNat, (copied t).cell .key j = v1.cell .key j :=
  ⟨by decide, by decide, _, rfl, by decide, rfl, rfl, rfl, fun _ _ => rfl, fun _ _ => rfl⟩

/-- The same with another key. -/
def copiedWithAnotherKey (t : State) : State :=
  { t with pixSrc := t.pixDst, keyMem := filled [0x4C#8] }

theorem witness_DecodeWithAWrongKeySucceedsWithGarbage :
    v1.Written .key v1.keyLen.toNat ∧ v1.Written .msg v1.msgLen.toNat ∧
    ∃ t, exec .encode v1 = .next t ∧ t.status.err = false ∧
      (copiedWithAnotherKey t).params = t.params ∧
      (copiedWithAnotherKey t).sampleCount = t.sampleCount ∧
      (∀ p < v1.sampleCount.toNat,
        (copiedWithAnotherKey t).cell .pixSrc p = t.cell .pixDst p) ∧
      1 ≤ (copiedWithAnotherKey t).keyLen.toNat ∧
      (copiedWithAnotherKey t).keyLen.toNat ≤ (copiedWithAnotherKey t).params.keyMax ∧
      (copiedWithAnotherKey t).cell .key 0 ≠ v1.cell .key 0 :=
  ⟨by decide, by decide, _, rfl, by decide, rfl, rfl, fun _ _ => rfl, by decide, by decide,
    by decide⟩

theorem witness_EmptyMessageRoundTrip :
    { v1 with msgLen := 0#16 }.msgLen = 0#16 ∧ 1 ≤ v1.keyLen.toNat ∧
    v1.keyLen.toNat ≤ v1.params.keyMax ∧
    (∀ j < v1.keyLen.toNat, v1.operand .key j ≠ 0xFF#8) ∧ 8 ≤ v1.sampleCount.toNat ∧
    v1.sampleCount.toNat ≤ v1.params.sampleMax ∧
    ∃ t, exec .encode { v1 with msgLen := 0#16 } = .next t ∧
      (copied t).params = t.params ∧ (copied t).sampleCount = t.sampleCount ∧
      (∀ p < v1.sampleCount.toNat, (copied t).cell .pixSrc p = t.cell .pixDst p) ∧
      1 ≤ (copied t).keyLen.toNat ∧ (copied t).keyLen.toNat ≤ (copied t).params.keyMax :=
  ⟨rfl, by decide, by decide, by decide, by decide, by decide, _, rfl, rfl, rfl, fun _ _ => rfl,
    by decide, by decide⟩

theorem v1_operandsWritten : v1.OperandsWritten .encode := by
  unfold State.OperandsWritten
  decide

theorem witness_WrittenOperandsDetermineTheResult :
    v1.OperandsWritten .encode ∧ ∃ t, exec .encode v1 = .next t := ⟨v1_operandsWritten, _, rfl⟩

theorem witness_RepeatedCommandRepeatsItsResult :
    v1.OperandsWritten .encode ∧ ∃ t, exec .encode v1 = .next t := ⟨v1_operandsWritten, _, rfl⟩

theorem witness_ExtractionSeesOnlyLowBits :
    (∀ p, (State.operand { v1 with pixSrc := times 24 0xFE#8 } .pixSrc p).getLsbD 0 =
      (v1.operand .pixSrc p).getLsbD 0) ∧
    (∃ t, exec .decode v1 = .next t) ∧ ∃ t, exec (.extract 3) v1 = .next t := by
  refine ⟨fun p => ?_, ⟨_, rfl⟩, _, rfl⟩
  by_cases hp : p < 24
  · revert p
    decide
  · have hr : ∀ v : Byte, Memory.read (times 24 v) p = none := by
      intro v
      have : ∀ m : Memory 8, (∀ c ∈ m, c.1 ≠ p) → Memory.read m p = none := by
        intro m
        induction m with
        | nil => exact fun _ => rfl
        | cons c m ih =>
          intro hm
          rw [Memory.read, if_neg (fun e => hm c (by simp) e.symm)]
          exact ih fun d hd => hm d (by simp [hd])
      refine this _ fun c hc => ?_
      obtain ⟨i, hi, rfl⟩ := List.mem_map.1 hc
      have hi := List.mem_range.1 hi
      rw [List.length_replicate] at hi
      show i ≠ p
      omega
    have e1 : State.operand { v1 with pixSrc := times 24 0xFE#8 } .pixSrc p =
        drawElement v1.draws .pixSrc p := by
      rw [State.operand, State.cell, hr]; rfl
    have e2 : v1.operand .pixSrc p = drawElement v1.draws .pixSrc p := by
      rw [State.operand, State.cell, show v1.pixSrc = times 24 0x00#8 from rfl, hr]; rfl
    rw [e1, e2]

/-- The last word, or byte, of each interval is admitted; the element after it, a narrow access of the
register page, an unaligned and an unmapped one are not. -/
theorem witness_AccessesAreAdmittedAsTheMapSays :
    State.reset.params.Legal ∧
    ((0x00000FFC#32).toNat % 4 = 0 ∧ (0x00000FFC#32).toNat + 4 ≤ 0x1000) ∧
    (0x1000 ≤ (0x000010FF#32).toNat ∧
      (0x000010FF#32).toNat + 1 ≤ 0x1000 + State.reset.params.keyMax) ∧
    (0x2000 ≤ (0x000020FC#32).toNat ∧
      (0x000020FC#32).toNat + 4 ≤ 0x2000 + State.reset.params.bufBytes) ∧
    (0x3000 ≤ (0x000030FE#32).toNat ∧
      (0x000030FE#32).toNat + 2 ≤ 0x3000 + State.reset.params.bufBytes) ∧
    (0x4000 ≤ (0x000047FC#32).toNat ∧
      (0x000047FC#32).toNat + 4 ≤ 0x4000 + 8 * State.reset.params.bufBytes) ∧
    (0x01000000 ≤ (0x01000FFF#32).toNat ∧
      (0x01000FFF#32).toNat + 1 ≤ 0x01000000 + State.reset.params.sampleMax) ∧
    (0x02000000 ≤ (0x02000FFF#32).toNat ∧
      (0x02000FFF#32).toNat + 1 ≤ 0x02000000 + State.reset.params.sampleMax) ∧
    (0x00002002#32).toNat % 4 ≠ 0 ∧
    ¬ ((0x00000008#32).toNat % 2 = 0 ∧ (2 = 4 ∧ (0x00000008#32).toNat + 2 ≤ 0x1000 ∨
      0x1000 ≤ (0x00000008#32).toNat)) ∧
    (¬ (0x00004800#32).toNat + 1 ≤ 0x4000 + 8 * State.reset.params.bufBytes ∧
      ¬ 0x01000000 ≤ (0x00004800#32).toNat) := by
  refine ⟨?_, ?_, ?_, ?_, ?_, ?_, ?_, ?_, ?_, ?_, ?_⟩ <;> decide

theorem witness_ReadOnlyRegistersReadTheirValues : State.reset.pending = none := rfl

theorem witness_LengthRegistersKeepSixteenBits :
    State.reset.pending = none ∧ (v1.accept 1#32).regPending .msgLen = false ∧
    (v1.accept 2#32).regPending .dataLen = false ∧
    (v1.accept 1#32).regPending .bitsLen = false ∧ ∃ t, exec .encode v1 = .next t :=
  ⟨by decide, by decide, by decide, by decide, _, rfl⟩

theorem witness_ReservedOffsetsReadZero :
    (0x034 ≤ (0x00000034#32).toNat ∧ (0x00000034#32).toNat ≤ 0xFFC ∧
      (0x00000034#32).toNat % 4 = 0) ∧
    (0x034 ≤ (0x00000FFC#32).toNat ∧ (0x00000FFC#32).toNat ≤ 0xFFC ∧
      (0x00000FFC#32).toNat % 4 = 0) ∧
    State.reset.pending = none ∧ (v1.accept 1#32).pending ≠ none := by decide

theorem witness_BufferWriteStoresItsLanes :
    State.reset.params.Legal ∧ State.reset.pending = none ∧ 252 % Width.word.bytes = 0 ∧
    252 + Width.word.bytes ≤ Buf.msg.size State.reset.params := by decide

theorem witness_MixedWidthViewsAgree :
    v1.params.Legal ∧ v1.pending = none ∧ 252 % 4 = 0 ∧ 252 + 4 ≤ Buf.msg.size v1.params ∧
    254 % 2 = 0 ∧ 254 + 2 ≤ Buf.msg.size v1.params ∧
    ((v1.accept 1#32).bufPending .msg = false ∧ 0 % 2 = 0 ∧ 0 + 2 ≤ Buf.msg.size v1.params ∧
      (v1.accept 1#32).cell .msg 0 = some 0x48#8 ∧
      (v1.accept 1#32).cell .msg 1 = some 0x49#8) ∧
    (∃ t, hostWrite (elemOff .msg 254) .half 0x00004948#32 v1 = .next t) ∧
    (∃ t, hostWrite (elemOff .msg 252) .word 0x44332211#32 v1 = .next t) ∧
    (∃ t0, hostWrite (elemOff .msg 254) .byte ((0x48#8).setWidth 32) v1 = .next t0 ∧
      ∃ t1, hostWrite (elemOff .msg 255) .byte ((0x49#8).setWidth 32) t0 = .next t1) ∧
    ∃ t0, hostWrite (elemOff .msg 252) .byte ((0x48#8).setWidth 32) v1 = .next t0 ∧
      ∃ t1, hostWrite (elemOff .msg 253) .byte ((0x49#8).setWidth 32) t0 = .next t1 ∧
      ∃ t2, hostWrite (elemOff .msg 254) .byte ((0x00#8).setWidth 32) t1 = .next t2 ∧
      ∃ t3, hostWrite (elemOff .msg 255) .byte ((0x00#8).setWidth 32) t2 = .next t3 :=
  ⟨by decide, rfl, rfl, by decide, rfl, by decide, by decide, ⟨_, rfl⟩, ⟨_, rfl⟩,
    ⟨_, rfl, _, rfl⟩, _, rfl, _, rfl, _, rfl, _, rfl⟩

theorem witness_BitCellsMoveOnePerLane :
    embedFull.params.Legal ∧ embedFull.pending = none ∧ 2044 % 4 = 0 ∧
    2044 + 4 ≤ 8 * embedFull.params.bufBytes ∧
    4 % 4 = 0 ∧ 4 + 4 ≤ 8 * embedFull.params.bufBytes ∧
    embedFull.cell .bits 4 = some 1#8 ∧ embedFull.cell .bits 5 = some 1#8 ∧
    embedFull.cell .bits 6 = some 1#8 ∧ embedFull.cell .bits 7 = some 1#8 := by decide

theorem witness_ReadsChangeNothingAndRepeat :
    (∃ t, hostRead 0x00002000#32 .half v1 = .next t) ∧
    (∀ b, regionOf (0x00002000#32).toNat = .buffer b → v1.bufPending b = false ∧
      ∀ j < Width.half.bytes,
        (v1.cell b ((0x00002000#32).toNat - b.base + j)).isSome = true) ∧
    ∀ r, regAt (0x00002000#32).toNat = some r → v1.regPending r = false := by
  refine ⟨⟨_, rfl⟩, fun b h => ?_, fun r _ => ?_⟩
  · cases b <;> first | decide | exact absurd h (by decide)
  · cases r <;> decide

theorem witness_WritesWhilePendingAreDropped :
    (v1.accept 1#32).pending ≠ none ∧ regOff .keyLen ≠ regOff .status ∧
    admission v1.params (regOff .keyLen) .word = none ∧
    admission v1.params 0x00002002#32 .word = some .misaligned := by decide

theorem witness_ReadsOutsideTheWriteSetAreExact :
    (v1.accept 1#32).Inv ∧ (v1.accept 1#32).pending = some 1#32 ∧
    (v1.accept 1#32).regPending .msgLen = false ∧ (v1.accept 1#32).regPending .bitsLen = false ∧
    (v1.accept 2#32).Inv ∧ (v1.accept 2#32).regPending .dataLen = false ∧
    (v1.accept 1#32).bufPending .msg = false ∧ 0 % Width.half.bytes = 0 ∧
    0 + Width.half.bytes ≤ Buf.msg.size v1.params ∧
    ∀ j < Width.half.bytes,
      (v1.accept 1#32).cell .msg (0 + j) = some (if j = 0 then 0x48#8 else 0x49#8) :=
  ⟨by decide, rfl, by decide, by decide, by decide, by decide, by decide, by decide, by decide,
    by decide⟩

theorem witness_PendingWriteSetIsUnobservable :
    (regionOf (0x00003000#32).toNat = .buffer .data ∧
      (v1.accept 1#32).bufPending .data = true) ∧
    (regionOf (regOff .dataLen).toNat = .registers ∧
      regAt (regOff .dataLen).toNat = some .dataLen ∧
      (v1.accept 1#32).regPending .dataLen = true) ∧
    (∃ t, hostRead 0x00003000#32 .byte (v1.accept 1#32) = .next t) ∧
    (∃ t, hostRead 0x00003000#32 .byte (locked.accept 1#32) = .next t) ∧
    (locked.accept 1#32).pending = (v1.accept 1#32).pending ∧
    (locked.accept 1#32).params = (v1.accept 1#32).params ∧
    (locked.accept 1#32).draws = (v1.accept 1#32).draws :=
  ⟨by decide, by decide, ⟨_, rfl⟩, ⟨_, rfl⟩, rfl, rfl, rfl⟩

/-- P3's race, the host next. -/
def race : State :=
  { v1.accept 6#32 with host := [.write (regOff .msgLen) .word 3#32], turns := [.host] }

theorem witness_HostStepsLeaveThePendingCommand :
    race.pending = some 6#32 ∧ race.mover = .host ∧ race.host.head? ≠ some .reset ∧
    ∃ t, step race = .next t := ⟨by decide, by decide, by decide, _, rfl⟩

theorem witness_NoAcceptedCommandStaysPending : race.pending ≠ none := by decide

/-- The host touches `STATUS` while a command is pending and `OVR` is set. -/
def raceStatus : State :=
  { race with
    host := [.write (regOff .status) .word 0#32], status := { race.status with ovr := true } }

theorem witness_ObedientHostCausesNoOverrun :
    (∀ h, raceStatus.host.head? = some h → h.obeys raceStatus = true) ∧
    ∃ t, step raceStatus = .next t ∧ t.status.ovr = true := by
  refine ⟨fun h e => ?_, _, rfl, by decide⟩
  cases e
  decide

theorem witness_ResetMeetsTheInvariant : Params.default.Legal := by decide

theorem witness_EveryStepKeepsTheInvariant : race.Inv ∧ ∃ t, step race = .next t :=
  ⟨by decide, _, rfl⟩

theorem witness_ResetInputRestoresTheResetState :
    { v1 with host := [.reset] }.host = [.reset] ∧ v1.pending = none ∧
    { race with host := [.reset] }.turns.head? = some .host := by decide

theorem witness_OnlyABusErrorStopsAStep :
    ∃ f, step { v1 with host := [.read 0x00002002#32 .word] } = .fault f := ⟨_, rfl⟩

theorem witness_IdleCoreKeepsAllState : v1.pending = none ∧ v1.host = [] := by decide

/-- The host polls while `ENCODE` is pending; the state meets the invariant, and `BUSY` is 1 in it. -/
theorem witness_HostMovesMakeTheirNextAccess :
    v1.pending = none ∧
    { v1 with host := [.read 0x00002000#32 .half] }.host = [.read 0x00002000#32 .half] ∧
    { v1 with host := [.write 0x00002000#32 .byte 7#32] }.host =
      [.write 0x00002000#32 .byte 7#32] ∧
    { v1 with host := [.wait] }.host = [.wait] ∧
    race.Inv ∧ race.pending ≠ none ∧ race.turns.head? = some .host ∧
    race.host = [.write (regOff .msgLen) .word 3#32] ∧
    { race with host := [.wait] }.host = [.wait] ∧ race.status.busy = true :=
  ⟨rfl, rfl, rfl, rfl, by decide, by decide, rfl, rfl, rfl, rfl⟩

theorem witness_CopyRoundMovesOneSample :
    v1.params.Legal ∧ v1.pending = none ∧
    { v1 with host := [.copySample 4095] }.host = [.copySample 4095] ∧
    4095 < v1.params.sampleMax ∧
    State.cell { v1 with pixDst := [(4095, 0x07#8)] } .pixDst 4095 = some 0x07#8 := by decide

end Sys2Proof.Tests
end

section
/-! PROOFS. The scope of a command that ends with an error (00_scope.md R10). -/

namespace Sys2Proof.Machine

theorem State.complete_zero_err (s : State) (info : Word) :
    (s.complete 0#4 info).status.err = false := rfl

/-- A command that ends with an error has raised it from the state at acceptance: the other way for a
command to end, the completion of its written state, leaves `ERR` clear. -/
theorem exec_eq_raise_of_err {i : Instr} {s t : State} (h : exec i s = .next t)
    (herr : t.status.err = true) : ∃ r, t = s.raise r := by
  obtain ⟨r, hr⟩ | ⟨n, g, v, hok, -⟩ := exec_cases i s
  · exact ⟨r, Host.Outcome.next.inj (h.symm.trans hr)⟩
  · obtain rfl := Host.Outcome.next.inj (h.symm.trans hok)
    rw [State.complete_zero_err] at herr
    exact absurd herr Bool.false_ne_true

/-- Raising an error writes `STATUS` and `ERR_INFO`, clears the pending command and uses up a draw. -/
theorem State.raise_frame (s : State) (r : Raise) :
    s.raise r = { s with status := (s.raise r).status, errInfo := (s.raise r).errInfo,
                         pending := none, draws := s.draws + 1 } := rfl

/-- Settles O10: such a command has only raised its error, and that writes nothing else. -/
theorem errorCompletionWritesOnlyStatus : Obligations.ErrorCompletionWritesOnlyStatus := by
  intro i s t h herr
  obtain ⟨r, rfl⟩ := exec_eq_raise_of_err h herr
  exact s.raise_frame r

end Sys2Proof.Machine
end

section
/-! PROOFS. The invariant: the reset state meets it, and every step of either agent keeps it
(10_state.md R25, R27, R36, R40, R44; 60_exceptions.md R160). -/

namespace Sys2Proof.Machine

/-! ## `STATUS`, `ERR_INFO`, `CMD` and the pending command -/

/-- After an error completion they agree, whatever the state at acceptance. -/
theorem State.raise_statusOk (s : State) (r : Raise) : (s.raise r).StatusOk := by
  simp [State.StatusOk, State.raise, Status.completed_code, r.kind.code_ne_zero, r.kind.code_le]

/-- After a successful completion they agree. -/
theorem State.complete_zero_statusOk (s : State) : (s.complete 0#4 0x00000000#32).StatusOk := by
  simp [State.StatusOk]

/-- At acceptance of a word they agree (R85). -/
theorem State.accept_statusOk (s : State) (w : Word) : (s.accept w).StatusOk := by
  simp [State.StatusOk, Status.accepted]

/-- An update of buffers and length registers does not touch them. -/
theorem State.StatusOk.congr {s t : State} (h : s.StatusOk) (hst : t.status = s.status)
    (he : t.errInfo = s.errInfo) (hc : t.cmd = s.cmd) (hp : t.pending = s.pending) :
    t.StatusOk := by
  simpa only [State.StatusOk, hst, he, hc, hp] using h

/-- `OVR` is free: no other field depends on it. -/
theorem State.Inv.setOvr {s : State} (h : s.Inv) (b : Bool) :
    State.Inv { s with status := { s.status with ovr := b } } := h

/-! ## Reset -/

theorem State.resetWith_inv {p : Params} (hp : p.Legal) : (State.resetWith p).Inv := by
  refine ⟨hp, ?_, ?_⟩
  · simp [State.MemoryOk, State.resetWith]
  · simp [State.StatusOk, State.resetWith, Status.reset]

theorem Params.default_legal : Params.default.Legal := by decide

/-- Settles O54: empty buffers are canonical, and a zero `STATUS` agrees with no pending command. -/
theorem resetMeetsTheInvariant : Obligations.ResetMeetsTheInvariant :=
  ⟨fun _ hp => State.resetWith_inv hp, State.resetWith_inv Params.default_legal⟩

/-! ## The core's step -/

theorem Instr.setLength_memoryOk (i : Instr) (v : Half) {s : State} (h : s.MemoryOk) :
    (i.setLength v s).MemoryOk := by
  cases i <;> exact h

theorem Instr.setLength_params (i : Instr) (v : Half) (s : State) :
    (i.setLength v s).params = s.params := by
  cases i <;> rfl

theorem State.Inv.raise {s : State} (h : s.Inv) (r : Raise) : (s.raise r).Inv := by
  obtain ⟨hp, hm, -⟩ := h
  exact ⟨hp, hm, s.raise_statusOk r⟩

/-- A command keeps the invariant: it raises an error, or completes after a block write that fits its
buffer. -/
theorem State.Inv.exec {s t : State} (h : s.Inv) {i : Instr} (he : exec i s = .next t) :
    t.Inv := by
  obtain ⟨r, hr⟩ | ⟨n, g, v, hok, hn⟩ := exec_cases i s
  · obtain rfl := Host.Outcome.next.inj (he.symm.trans hr)
    exact h.raise r
  · obtain rfl := Host.Outcome.next.inj (he.symm.trans hok)
    obtain ⟨hp, hm, -⟩ := h
    refine ⟨?_, ?_, State.complete_zero_statusOk _⟩
    · rwa [State.complete_params, Instr.setLength_params, State.setBlock_params]
    · exact Instr.setLength_memoryOk i v (hm.setBlock i.destBuf (hn hp) g)

theorem State.Inv.coreTurn {s t : State} (h : s.Inv) {w : Word} (hc : coreTurn w s = .next t) :
    t.Inv := by
  unfold Machine.coreTurn at hc
  split at hc
  · exact h.exec hc
  · cases hc
    exact h.raise _

/-! ## The host's step -/

theorem State.Inv.setLanes {s : State} (h : s.Inv) (b : Buf) {i n : Nat} (v : Word)
    (hn : i + n ≤ b.size s.params) : (s.setLanes b i v n).Inv := by
  obtain ⟨hp, hm, hs⟩ := h
  refine ⟨?_, hm.setLanes b i v hn, hs.congr ?_ ?_ ?_ ?_⟩
  · rwa [State.setLanes_params]
  all_goals simp

/-- A register write while idle accepts a command, clears `OVR`, or sets an operand register. -/
theorem State.Inv.writeReg {s : State} (h : s.Inv) (r : Reg) (v : Word) : (s.writeReg r v).Inv := by
  obtain ⟨hp, hm, hs⟩ := h
  cases r with
  | cmd => exact ⟨hp, hm, s.accept_statusOk v⟩
  | status => exact State.Inv.setOvr ⟨hp, hm, hs⟩ _
  | id | errInfo | keyLen | msgLen | dataLen | bitsLen | sampleCount | capacity | paramBuf
  | paramKey | paramSamples => exact ⟨hp, hm, hs⟩

theorem State.Inv.idleWrite {s : State} (h : s.Inv) {off : Word} {width : Width} (v : Word)
    (ha : admission s.params off width = none) : (s.idleWrite off width v).Inv := by
  unfold State.idleWrite
  split
  · split
    · exact h.writeReg _ v
    · exact h
  · exact h.setLanes _ v (admission_buffer ha ‹_›)
  · exact h

/-- A write while a command is pending changes at most `OVR` (R194). -/
theorem State.Inv.pendingWrite {s : State} (h : s.Inv) (off v : Word) :
    (s.pendingWrite off v).Inv := by
  unfold State.pendingWrite
  split <;> exact h.setOvr _

theorem State.Inv.busWrite {s : State} (h : s.Inv) {off : Word} {width : Width} (v : Word)
    (ha : admission s.params off width = none) : (s.busWrite off width v).Inv := by
  unfold State.busWrite
  split
  · exact h.idleWrite v ha
  · exact h.pendingWrite off v

theorem State.Inv.resetInput {s : State} (h : s.Inv) : s.resetInput.Inv :=
  State.resetWith_inv h.1

/-- A host step keeps the invariant: its queue, its reply and the draws are no part of it. -/
theorem State.Inv.hostTurn {s t : State} (h : s.Inv) (ht : hostTurn s = .next t) : t.Inv := by
  obtain ⟨-, rfl⟩ | ⟨hs, v, rfl⟩ | ⟨off, width, v, rest, -, ha, rfl⟩ | ⟨rest, -, rfl⟩ :=
    hostTurn_cases ht
  · exact h
  · exact h
  · exact State.Inv.busWrite (s := { s with host := rest }) h v ha
  · exact State.Inv.resetInput (s := { s with host := rest }) h

/-- All that a step can be: one of the host or of the core, with the schedule's choice used up where
a command is pending. -/
theorem step_cases {s t : State} (h : step s = .next t) :
    (s.pending = none ∧ hostTurn s = .next t) ∨
    (∃ w, s.pending = some w ∧ coreTurn w s.takeTurn = .next t) ∨
    (∃ w, s.pending = some w ∧ hostTurn s.takeTurn = .next t) := by
  cases hp : s.pending with
  | none => exact .inl ⟨rfl, step_of_idle hp ▸ h⟩
  | some w =>
    cases hm : s.mover with
    | core => exact .inr (.inl ⟨w, rfl, step_of_core hp hm ▸ h⟩)
    | host => exact .inr (.inr ⟨w, rfl, step_of_host hp hm ▸ h⟩)

theorem State.Inv.takeTurn {s : State} (h : s.Inv) : s.takeTurn.Inv := h

/-- Settles O55: the agent that moves keeps the invariant, and the schedule is no part of it. -/
theorem everyStepKeepsTheInvariant : Obligations.EveryStepKeepsTheInvariant := by
  intro s t h hstep
  obtain ⟨-, ht⟩ | ⟨w, -, hc⟩ | ⟨w, -, ht⟩ := step_cases hstep
  · exact h.hostTurn ht
  · exact h.takeTurn.coreTurn hc
  · exact h.takeTurn.hostTurn ht

end Sys2Proof.Machine
end

section
/-! PROOFS. Where the host wrote what a command reads, the number of the next draw does not show in its
result (10_state.md R45, 00_scope.md R15). -/

namespace Sys2Proof.Machine

section Draws

variable {s t : State} (d : Nat)

/-! ## Written elements -/

theorem State.Written.mono {b : Buf} {n m : Nat} (h : s.Written b n) (hm : m ≤ n) :
    s.Written b m :=
  fun i hi => h i (lt_of_lt_of_le hi hm)

/-- A written element is the operand whatever the next draw is. -/
theorem State.operand_setDraws {b : Buf} {n i : Nat} (h : s.Written b n) (hi : i < n) :
    State.operand { s with draws := d } b i = s.operand b i :=
  State.operand_congr (State.cell_congr rfl rfl rfl rfl rfl rfl b i) (.inr (h i hi))

theorem pack_congr {f g : Nat → Byte} (h : ∀ j < 8, f j = g j) : pack f = pack g := by
  simp [pack, h]

theorem State.sampleByte_setDraws {n i : Nat} (h : s.Written .pixSrc n) (hi : 8 * i + 8 ≤ n) :
    State.sampleByte { s with draws := d } i = s.sampleByte i :=
  pack_congr fun _ _ => State.operand_setDraws d h (by omega)

/-- Once the key check has passed, a written key gives the same key byte at every position. -/
theorem State.keyByte_setDraws (h : s.Written .key (min s.keyLen.toNat s.params.keyMax))
    (hk : keyError s = none) (i : Nat) :
    State.keyByte { s with draws := d } i = s.keyByte i := by
  obtain ⟨hpos, hle⟩ := (keyError_eq_none_iff s).1 hk
  exact State.operand_setDraws d (h.mono (le_min le_rfl hle)) (Nat.mod_lt _ hpos)

/-- Once the key check has passed, the range check sees only written bytes. -/
theorem rangeError_setDraws {n : Nat} (hm : s.Written .msg n)
    (h : s.Written .key (min s.keyLen.toNat s.params.keyMax)) (hk : keyError s = none) :
    rangeError { s with draws := d } n s.keyLen.toNat = rangeError s n s.keyLen.toNat := by
  obtain ⟨-, hle⟩ := (keyError_eq_none_iff s).1 hk
  exact rangeError_congr (fun _ hi => State.operand_setDraws d hm hi)
    (fun _ hj => State.operand_setDraws d (h.mono (le_min le_rfl hle)) hj)

theorem State.framedByte_setDraws {n j : Nat} (hm : s.Written .msg n)
    (h : s.Written .key (min s.keyLen.toNat s.params.keyMax)) (hk : keyError s = none)
    (hj : j ≤ n) : State.framedByte { s with draws := d } n j = s.framedByte n j := by
  cases j with
  | zero => rfl
  | succ i =>
    rw [State.framedByte, State.framedByte, State.operand_setDraws d hm hj,
      State.keyByte_setDraws d h hk]

/-! ## Checks and the written state -/

/-- Two lists of checks fail alike if their heads agree and, where these pass, their tails fail alike. -/
theorem firstError_cons_congr {c c' : Option Raise} {cs cs' : List (Option Raise)} (hc : c' = c)
    (h : c = none → firstError cs' = firstError cs) :
    firstError (c' :: cs') = firstError (c :: cs) := by
  subst hc
  cases c' with
  | none => exact h rfl
  | some r => rfl

theorem State.setBlock_setDraws (s : State) (b : Buf) (n : Nat) {g g' : Nat → Byte}
    (h : ∀ i < n, g' i = g i) :
    State.setBlock { s with draws := d } b n g' = { s.setBlock b n g with draws := d } := by
  rw [State.setBlock_congr _ b n h]
  cases b <;> rfl

/-- Checks and a written state that do not see the next draw end the command without it showing. -/
theorem conclude_setDraws {w w' : State} {cs cs' : List (Option Raise)}
    (h : conclude s cs w = .next t) (hc : firstError cs' = firstError cs)
    (hw : firstError cs = none → w' = { w with draws := d }) :
    conclude { s with draws := d } cs' w' = .next { t with draws := d + 1 } :=
  conclude_map (fun u => { u with draws := d + 1 }) h hc (fun _ => rfl) fun ho => by
    rw [hw ho]
    rfl

/-! ## The commands -/

/-- `LOCK`: the range check and the cipher see written message and key bytes. -/
theorem execLock_setDraws (hw : s.OperandsWritten .lock) (h : execLock s = .next t) :
    execLock { s with draws := d } = .next { t with draws := d + 1 } := by
  obtain ⟨hkey, hmsg⟩ := hw
  refine conclude_setDraws d h ?_ fun ho => congrArg (·.setDataLen s.msgLen)
    (State.setBlock_setDraws d s .data s.msgLen.toNat fun i hi => ?_)
  · refine firstError_cons_congr rfl fun hk => firstError_cons_congr rfl fun hn => ?_
    have hn' := (limitError_eq_none_iff _ _).1 hn
    exact firstError_cons_congr
      (rangeError_setDraws d (hmsg.mono (le_min le_rfl hn')) hkey hk) fun _ => rfl
  · simp only [firstError_eq_none_iff, List.forall_mem_cons, limitError_eq_none_iff] at ho
    obtain ⟨hk, hn, -⟩ := ho
    rw [State.operand_setDraws d hmsg (lt_min hi (by omega)), State.keyByte_setDraws d hkey hk]

/-- `UNLOCK`: the cipher sees written data and key bytes. -/
theorem execUnlock_setDraws (hw : s.OperandsWritten .unlock) (h : execUnlock s = .next t) :
    execUnlock { s with draws := d } = .next { t with draws := d + 1 } := by
  obtain ⟨hkey, hdata⟩ := hw
  refine conclude_setDraws d h rfl fun ho => congrArg (·.setMsgLen s.dataLen)
    (State.setBlock_setDraws d s .msg s.dataLen.toNat fun i hi => ?_)
  simp only [firstError_eq_none_iff, List.forall_mem_cons, limitError_eq_none_iff] at ho
  obtain ⟨hk, hn, -⟩ := ho
  rw [State.operand_setDraws d hdata (lt_min hi (by omega)), State.keyByte_setDraws d hkey hk]

/-- `B2B`: bit `i` of the stream is a bit of written data byte `i / 8`. -/
theorem execB2b_setDraws (hw : s.OperandsWritten .b2b) (h : execB2b s = .next t) :
    execB2b { s with draws := d } = .next { t with draws := d + 1 } := by
  refine conclude_setDraws d h rfl fun ho =>
    congrArg (·.setBitsLen (BitVec.ofNat 16 (8 * s.dataLen.toNat)))
      (State.setBlock_setDraws d s .bits (8 * s.dataLen.toNat) fun i hi => ?_)
  simp only [firstError_eq_none_iff, List.forall_mem_cons, limitError_eq_none_iff] at ho
  obtain ⟨hn, -⟩ := ho
  rw [streamBit, streamBit, State.operand_setDraws d hw (lt_min (by omega) (by omega))]

/-- `EMBED`: a sample and, in the first `BITS_LEN`, a cell, all written. -/
theorem execEmbed_setDraws (hw : s.OperandsWritten .embed) (h : execEmbed s = .next t) :
    execEmbed { s with draws := d } = .next { t with draws := d + 1 } := by
  obtain ⟨hbits, hpix⟩ := hw
  refine conclude_setDraws d h rfl fun ho =>
    State.setBlock_setDraws d s .pixDst s.sampleCount.toNat fun i hi => ?_
  simp only [firstError_eq_none_iff, List.forall_mem_cons, limitError_eq_none_iff,
    sampleLimitError_eq_none_iff] at ho
  obtain ⟨hn, hS, -⟩ := ho
  rw [State.operand_setDraws d hpix (lt_min hi (by omega))]
  by_cases hb : i < s.bitsLen.toNat
  · rw [if_pos hb, if_pos hb, State.operand_setDraws d hbits (lt_min hb (by omega))]
  · rw [if_neg hb, if_neg hb]

/-- `EXTRACT`: byte `i` is spelt by samples `8i` to `8i + 7`, all written. -/
theorem execExtract_setDraws {c : Nat} (hw : s.OperandsWritten (.extract c))
    (h : execExtract c s = .next t) :
    execExtract c { s with draws := d } = .next { t with draws := d + 1 } := by
  refine conclude_setDraws d h rfl fun ho => congrArg (·.setDataLen (BitVec.ofNat 16 c))
    (State.setBlock_setDraws d s .data c fun i hi => ?_)
  simp only [firstError_eq_none_iff, List.forall_mem_cons, sampleLimitError_eq_none_iff,
    capacityError_eq_none_iff] at ho
  obtain ⟨-, hS, hc, -⟩ := ho
  exact State.sampleByte_setDraws d hw (le_min (by omega) (by omega))

/-- `ENCODE`: the range check and the frame see written message and key bytes, the embedding written
samples. -/
theorem execEncode_setDraws (hw : s.OperandsWritten .encode) (h : execEncode s = .next t) :
    execEncode { s with draws := d } = .next { t with draws := d + 1 } := by
  obtain ⟨hkey, hmsg, hpix⟩ := hw
  refine conclude_setDraws d h ?_ fun ho =>
    State.setBlock_setDraws d s .pixDst s.sampleCount.toNat fun i hi => ?_
  · refine firstError_cons_congr rfl fun hk => firstError_cons_congr rfl fun hn => ?_
    have hn' := (messageLengthError_eq_none_iff _).1 hn
    exact firstError_cons_congr
      (rangeError_setDraws d (hmsg.mono (le_min le_rfl hn')) hkey hk) fun _ => rfl
  · simp only [firstError_eq_none_iff, List.forall_mem_cons, messageLengthError_eq_none_iff,
      sampleLimitError_eq_none_iff] at ho
    obtain ⟨hk, hn, -, hS, -⟩ := ho
    rw [State.operand_setDraws d hpix (lt_min hi (by omega))]
    by_cases hb : i < 8 * (s.msgLen.toNat + 1)
    · rw [if_pos hb, if_pos hb, streamBit, streamBit,
        State.framedByte_setDraws d (hmsg.mono (le_min le_rfl hn)) hkey hk (by omega)]
    · rw [if_neg hb, if_neg hb]

/-- The length byte that `DECODE` reads, once the checks of R145 that come before it have passed. -/
theorem State.sampleByte_zero_setDraws
    (hpix : s.Written .pixSrc (min s.sampleCount.toNat s.params.sampleMax))
    (hS : sampleLimitError s = none) (h8 : capacityError s 8 = none) :
    State.sampleByte { s with draws := d } 0 = s.sampleByte 0 := by
  rw [sampleLimitError_eq_none_iff] at hS
  rw [capacityError_eq_none_iff] at h8
  exact State.sampleByte_setDraws d hpix (le_min h8 (by omega))

/-- `DECODE`: the length byte is read only where its samples were written, and so are the cipher and
key bytes. -/
theorem execDecode_setDraws (hw : s.OperandsWritten .decode) (h : execDecode s = .next t) :
    execDecode { s with draws := d } = .next { t with draws := d + 1 } := by
  obtain ⟨hkey, hpix⟩ := hw
  refine conclude_setDraws d h ?_ fun ho => ?_
  · refine firstError_cons_congr rfl fun hS => firstError_cons_congr rfl fun h8 => ?_
    rw [State.sampleByte_zero_setDraws d hpix hS h8]
    rfl
  · simp only [firstError_eq_none_iff, List.forall_mem_cons] at ho
    obtain ⟨hS, h8, hc, hk, -⟩ := ho
    rw [State.sampleByte_zero_setDraws d hpix hS h8]
    rw [sampleLimitError_eq_none_iff] at hS
    rw [capacityError_eq_none_iff] at hc
    refine congrArg (·.setMsgLen ((s.sampleByte 0).setWidth 16))
      (State.setBlock_setDraws d s .msg (s.sampleByte 0).toNat fun i hi => ?_)
    rw [State.sampleByte_setDraws d hpix (le_min (by omega) (by omega)),
      State.keyByte_setDraws d hkey hk]

end Draws

/-- Settles O33, command by command. -/
theorem writtenOperandsDetermineTheResult : Obligations.WrittenOperandsDetermineTheResult := by
  intro i s t d hw h
  cases i with
  | lock => exact execLock_setDraws d hw h
  | unlock => exact execUnlock_setDraws d hw h
  | b2b => exact execB2b_setDraws d hw h
  | embed => exact execEmbed_setDraws d hw h
  | extract c => exact execExtract_setDraws d hw h
  | encode => exact execEncode_setDraws d hw h
  | decode => exact execDecode_setDraws d hw h

end Sys2Proof.Machine
end

section
/-! PROOFS. Host accesses to the register page (10_state.md R22 to R35). -/

namespace Sys2Proof.Machine

/-! ## Reads and writes of one register -/

/-- A read outside the pending write set replies the register's value. -/
theorem hostRead_register_reply {s : State} {r : Reg} (h : s.regPending r = false) :
    ∃ t, hostRead (regOff r) .word s = .next t ∧ t.reply = some (s.regValue r) :=
  ⟨_, hostRead_register h, rfl⟩

/-- A register that no command writes replies its value in every state (R195, R196). -/
theorem hostRead_fixed_register_reply (s : State) {r : Reg}
    (h : r ≠ .msgLen ∧ r ≠ .dataLen ∧ r ≠ .bitsLen) :
    ∃ t, hostRead (regOff r) .word s = .next t ∧ t.reply = some (s.regValue r) :=
  hostRead_register_reply (s.regPending_eq_false h)

theorem hostWrite_register_of_idle {s : State} (h : s.pending = none) (r : Reg) (v : Word) :
    hostWrite (regOff r) .word v s = .next (s.writeReg r v).acknowledged := by
  rw [hostWrite_of_admitted (admission_register _ _), State.busWrite_of_idle h,
    State.idleWrite_register]

theorem State.writeReg_of_readOnly (s : State) {r : Reg} (v : Word)
    (h : r = .id ∨ r = .errInfo ∨ r = .capacity ∨ r = .paramBuf ∨ r = .paramKey ∨
      r = .paramSamples) : s.writeReg r v = s := by
  obtain rfl | rfl | rfl | rfl | rfl | rfl := h <;> rfl

/-- Settles O38: no command writes these registers, and an idle core ignores writes to them. -/
theorem readOnlyRegistersReadTheirValues : Obligations.ReadOnlyRegistersReadTheirValues := by
  intro s
  have hread := @hostRead_fixed_register_reply s
  refine ⟨hread (by decide), hread (by decide), hread (by decide), hread (by decide),
    hread (by decide), hread (by decide), hread (by decide), fun r v hp hr => ?_⟩
  rw [hostWrite_register_of_idle hp, State.writeReg_of_readOnly s v hr]
  rfl

/-! ## Length registers -/

/-- The 16 bits of a length register, zero-extended (R28). -/
theorem setWidth_half_eq_zero_append (x : Half) : x.setWidth 32 = 0#16 ++ x :=
  BitVec.setWidth_eq_append (by decide)

theorem Instr.setLength_sampleCount (i : Instr) (v : Half) (s : State) :
    (i.setLength v s).sampleCount = s.sampleCount := by
  cases i <;> rfl

/-- No command writes `SAMPLE_COUNT` (R33). -/
theorem exec_sampleCount {i : Instr} {s t : State} (h : exec i s = .next t) :
    t.sampleCount = s.sampleCount := by
  obtain ⟨r, hr⟩ | ⟨n, g, v, hok, -⟩ := exec_cases i s
  · obtain rfl := Host.Outcome.next.inj (h.symm.trans hr)
    rfl
  · obtain rfl := Host.Outcome.next.inj (h.symm.trans hok)
    rw [State.complete_sampleCount, Instr.setLength_sampleCount, State.setBlock_sampleCount]

/-- Settles O39: both directions of the zero extension are the access rules of one register. -/
theorem lengthRegistersKeepSixteenBits : Obligations.LengthRegistersKeepSixteenBits := by
  intro s v
  have hlow : v.setWidth 16 = v.extractLsb' 0 16 := BitVec.setWidth_eq_extractLsb' (by decide)
  refine ⟨fun hp => ?_, hostRead_fixed_register_reply s (by decide),
    hostRead_fixed_register_reply s (by decide), fun i t h => exec_sampleCount h, ?_,
    fun h => ?_, fun h => ?_, fun h => ?_⟩
  · simp only [hostWrite_register_of_idle hp, ← hlow]
    exact ⟨rfl, rfl, rfl, rfl, rfl⟩
  · exact setWidth_half_eq_zero_append s.keyLen ▸ hostRead_fixed_register_reply s (by decide)
  · exact setWidth_half_eq_zero_append s.msgLen ▸ hostRead_register_reply h
  · exact setWidth_half_eq_zero_append s.dataLen ▸ hostRead_register_reply h
  · exact setWidth_half_eq_zero_append s.bitsLen ▸ hostRead_register_reply h

/-! ## Reserved offsets -/

theorem regionOf_of_lt {a : Nat} (h : a < 0x1000) : regionOf a = .registers := if_pos h

/-- Every implemented register lies below the reserved offsets (R23, R35). -/
theorem Reg.offset_lt (r : Reg) : r.offset < 0x034 := by cases r <;> decide

theorem regAt_of_reserved {a : Nat} (h : 0x034 ≤ a) : regAt a = none := by
  refine List.find?_eq_none.2 fun r _ => ?_
  have := r.offset_lt
  simp only [beq_iff_eq]
  omega

theorem admission_of_aligned_register {off : Word} (p : Params)
    (hr : regionOf off.toNat = .registers) (ha : off.toNat % 4 = 0) : admission p off .word = none := by
  simp [admission, Width.bytes, hr, ha]

/-- Settles O40: the offset lies in the register page, above every implemented register. -/
theorem reservedOffsetsReadZero : Obligations.ReservedOffsetsReadZero := by
  intro s off v hlo hhi ha
  have hr : regionOf off.toNat = .registers := regionOf_of_lt (by omega)
  have hnone : regAt off.toNat = none := regAt_of_reserved hlo
  have hadm := admission_of_aligned_register s.params hr ha
  rw [hostRead_of_admitted hadm, hostWrite_of_admitted hadm]
  refine ⟨⟨_, rfl, ?_⟩, fun hp => ?_, fun hp => ?_⟩
  · simp [State.busRead, hr, hnone]
  · rw [State.busWrite_of_idle hp, State.idleWrite, hr, hnone]
    rfl
  · have hne : off.toNat ≠ Reg.status.offset := (Reg.status.offset_lt.trans_le hlo).ne'
    rw [State.busWrite_of_pending hp, State.pendingWrite, if_neg hne]
    rfl

/-! ## `STATUS` -/

/-- The four flags stand at bits 0 to 3 (R25). -/
theorem Status.word_flags (st : Status) :
    st.word.getLsbD 0 = st.busy ∧ st.word.getLsbD 1 = st.done ∧ st.word.getLsbD 2 = st.err ∧
      st.word.getLsbD 3 = st.ovr := by
  unfold Status.word
  refine ⟨?_, ?_, ?_, ?_⟩ <;> simp only [BitVec.getLsbD_append] <;> simp

/-- Above the flags: four zeros, then `ERRCODE`, then zeros (R25). -/
theorem Status.word_getLsbD_add_four (st : Status) (k : Nat) :
    st.word.getLsbD (k + 4) = (!decide (k < 4) && st.errcode.getLsbD (k - 4)) := by
  have hhigh : (0#20 ++ st.errcode).getLsbD (k - 4) = st.errcode.getLsbD (k - 4) := by
    rw [BitVec.getLsbD_append, BitVec.getLsbD_zero]
    split
    · rfl
    · exact (BitVec.getLsbD_of_ge _ _ (by omega)).symm
  unfold Status.word
  simp only [BitVec.getLsbD_append (m := 1), BitVec.getLsbD_append (m := 4) (y := 0#4)]
  by_cases hk : k < 4
  · simp [hk]
  · simpa [hk] using hhigh

theorem Status.word_errcode (st : Status) (j : Nat) :
    st.word.getLsbD (8 + j) = st.errcode.getLsbD j := by
  rw [show 8 + j = (4 + j) + 4 by omega, st.word_getLsbD_add_four]
  simp

theorem Status.word_zero (st : Status) {k : Nat} (hk : 4 ≤ k ∧ k < 8 ∨ 12 ≤ k) :
    st.word.getLsbD k = false := by
  obtain ⟨m, rfl⟩ : ∃ m, k = m + 4 := ⟨k - 4, by omega⟩
  rw [st.word_getLsbD_add_four]
  obtain ⟨-, hm⟩ | hm := hk
  · simp [show m < 4 by omega]
  · rw [BitVec.getLsbD_of_ge st.errcode _ (by omega), Bool.and_false]

/-- Settles O41: the reply is the view of `STATUS`. -/
theorem statusReadsItsFields : Obligations.StatusReadsItsFields := by
  intro s
  obtain ⟨t, ht, hv⟩ := hostRead_fixed_register_reply (r := .status) s (by decide)
  obtain ⟨h0, h1, h2, h3⟩ := s.status.word_flags
  exact ⟨t, s.status.word, ht, hv, h0, h1, h2, h3, fun j _ => s.status.word_errcode j,
    fun _ => s.status.word_zero⟩

theorem Status.written_eq (st : Status) (v : Word) :
    st.written v = { st with ovr := if v.getLsbD 3 then false else st.ovr } := by
  cases h : v.getLsbD 3 <;> simp only [Status.written, h] <;> simp

/-- A write to `STATUS` has the same effect whether or not a command is pending (R26, R194). -/
theorem State.busWrite_status (s : State) (width : Width) (v : Word) :
    s.busWrite (regOff .status) width v = { s with status := s.status.written v } := by
  unfold State.busWrite
  split
  · exact s.idleWrite_register .status width v
  · exact if_pos (regOff_toNat .status)

/-- Settles O42: the write reaches `STATUS` in either case, and `Status.written` clears `OVR` alone. -/
theorem statusWriteOnlyClearsOverrun : Obligations.StatusWriteOnlyClearsOverrun := by
  intro s v
  rw [hostWrite_of_admitted (admission_register _ _), State.busWrite_status, Status.written_eq]
  rfl

end Sys2Proof.Machine
end

section
/-! PROOFS. Host accesses to the window: which are admitted, and what those to the buffers store and
return (20_memory.md; 10_state.md R36 to R38, R45). -/

namespace Sys2Proof.Machine

/-! ## The window in host bus addresses -/

/-- Settles O47: inside the window the difference from `BASE` fits 32 bits, so it is the offset. -/
theorem windowOffsetsAreRelativeToBase : Obligations.WindowOffsetsAreRelativeToBase := by
  intro p addr off
  have hoff := off.isLt
  unfold busOffset
  split
  case isTrue h =>
    rw [Option.some_inj, ← BitVec.toNat_inj, BitVec.toNat_ofNat]
    omega
  case isFalse h =>
    refine ⟨fun hn => (nomatch hn), fun ha => absurd ?_ h⟩
    omega

/-! ## Which accesses are admitted -/

theorem Width.bytes_eq_four_iff (width : Width) : width.bytes = 4 ↔ width = .word := by
  cases width <;> decide

/-- The register page is the lowest region of the window (R52). -/
theorem regionOf_eq_registers_iff (a : Nat) : regionOf a = .registers ↔ a < 0x1000 := by
  refine ⟨fun h => ?_, regionOf_of_lt⟩
  by_contra hge
  unfold regionOf at h
  rw [if_neg hge] at h
  repeat' split at h
  all_goals cases h

/-- Lying in a buffer's region and ending inside the buffer is lying between its two ends (R52). -/
theorem Buf.access_inside_iff {p : Params} (hp : p.Legal) (b : Buf) {a n : Nat} (hn : 1 ≤ n) :
    regionOf a = .buffer b ∧ a - b.base + n ≤ b.size p ↔
      b.base ≤ a ∧ a + n ≤ b.base + b.size p := by
  constructor
  · rintro ⟨hr, hle⟩
    have := Buf.base_le_of_regionOf hr
    omega
  · rintro ⟨hge, hle⟩
    have hr := (Buf.region_of_size hp b (i := a - b.base) (by omega)).2
    rw [Nat.add_sub_cancel' hge] at hr
    exact ⟨hr, by omega⟩

/-- The conditions of R54: alignment, then width 4 in the register page or the end inside a buffer. -/
theorem admission_eq_none_iff (p : Params) (off : Word) (width : Width) :
    admission p off width = none ↔ off.toNat % width.bytes = 0 ∧
      (width = .word ∧ regionOf off.toNat = .registers ∨
        ∃ b, regionOf off.toNat = .buffer b ∧ off.toNat - b.base + width.bytes ≤ b.size p) := by
  unfold admission
  by_cases ha : off.toNat % width.bytes = 0
  · cases regionOf off.toNat <;> simp [ha]
  · simp [ha]

/-- With legal parameters, admission is the map of R52 in offsets. -/
theorem admission_eq_none_iff_inside {p : Params} (hp : p.Legal) (off : Word) (width : Width) :
    admission p off width = none ↔ off.toNat % width.bytes = 0 ∧
      (width.bytes = 4 ∧ off.toNat + width.bytes ≤ 0x1000 ∨
        ∃ b : Buf, b.base ≤ off.toNat ∧ off.toNat + width.bytes ≤ b.base + b.size p) := by
  have hpage : off.toNat % width.bytes = 0 →
      (width.bytes = 4 ∧ off.toNat < 0x1000 ↔
        width.bytes = 4 ∧ off.toNat + width.bytes ≤ 0x1000) := by
    intro ha
    refine and_congr_right fun h4 => ?_
    rw [h4] at ha ⊢
    omega
  simp only [admission_eq_none_iff, Buf.access_inside_iff hp _ width.bytes_pos,
    regionOf_eq_registers_iff, ← Width.bytes_eq_four_iff]
  exact and_congr_right fun ha => or_congr_left (hpage ha)

theorem Buf.exists_iff (P : Buf → Prop) :
    (∃ b, P b) ↔ P .key ∨ P .msg ∨ P .data ∨ P .bits ∨ P .pixSrc ∨ P .pixDst := by
  constructor
  · rintro ⟨b, hb⟩
    cases b <;> simp [hb]
  · rintro (h | h | h | h | h | h) <;> exact ⟨_, h⟩

theorem hostRead_of_not_admitted {off : Word} {width : Width} {s : State} {kind : AccessFault}
    (h : admission s.params off width = some kind) :
    hostRead off width s = .fault (.hostAccessFault off width kind) := by
  simp [hostRead, h]

theorem hostWrite_of_not_admitted {off : Word} {width : Width} {s : State} {kind : AccessFault}
    (h : admission s.params off width = some kind) (v : Word) :
    hostWrite off width v s = .fault (.hostAccessFault off width kind) := by
  simp [hostWrite, h]

/-- Settles O37: reads and writes share one admission, which is the map of R52 in offsets. -/
theorem accessesAreAdmittedAsTheMapSays : Obligations.AccessesAreAdmittedAsTheMapSays := by
  refine ⟨fun r => by cases r <;> rfl, fun b i => ?_, fun p b => by cases b <;> rfl, ?_⟩
  · rw [elemOff, Nat.add_comm]
    cases b <;> rfl
  · intro s off width v hp a n admitted
    have hiff : admission s.params off width = none ↔ admitted :=
      (admission_eq_none_iff_inside hp off width).trans
        (and_congr_right fun _ => or_congr_right (Buf.exists_iff _))
    refine ⟨fun h => ?_, fun h => ?_⟩
    · have hadm := hiff.2 h
      exact ⟨⟨_, hostRead_of_admitted hadm⟩, _, hostWrite_of_admitted hadm⟩
    · obtain ⟨kind, hk⟩ := Option.ne_none_iff_exists'.1 (mt hiff.1 h)
      exact ⟨kind, hostRead_of_not_admitted hk, hostWrite_of_not_admitted hk v⟩

/-! ## Writes to buffers -/

/-- An admitted write to an idle core's buffer stores its lanes, and does nothing else. -/
theorem hostWrite_elements {s : State} (hp : s.params.Legal) (hidle : s.pending = none) {b : Buf}
    {i : Nat} {width : Width} (ha : i % width.bytes = 0) (hi : i + width.bytes ≤ b.size s.params)
    (v : Word) : hostWrite (elemOff b i) width v s =
      .next (s.setLanes b i v width.bytes).acknowledged := by
  have hpos := width.bytes_pos
  rw [hostWrite_of_admitted (admission_element hp b ha hi), State.busWrite_of_idle hidle,
    State.idleWrite_element hp b (by omega)]

/-- A lane that was stored. -/
theorem State.setLanes_cell_inside (s : State) (b : Buf) (i : Nat) (v : Word) {n j : Nat}
    (hj : j < n) : (s.setLanes b i v n).cell b (i + j) = some (b.kept (lane v j)) := by
  rw [State.setLanes_cell, if_pos ⟨rfl, by omega, by omega⟩, Nat.add_sub_cancel_left]

/-- Settles O43: the state after the write differs from the one before in the lanes stored. -/
theorem bufferWriteStoresItsLanes : Obligations.BufferWriteStoresItsLanes := by
  intro s b i width v hp hidle ha hi
  refine ⟨_, hostWrite_elements hp hidle ha hi v, fun j hj => ?_, fun b' p hout => ?_, ?_⟩
  · rw [State.acknowledged_cell, State.setLanes_cell_inside s b i v hj, lane]
  · rw [State.acknowledged_cell, State.setLanes_cell, if_neg hout]
  · simp [hidle]

/-! ## Views of different widths -/

theorem joinLanes_one (f : Nat → Byte) : joinLanes 1 f = (f 0).setWidth 32 := by
  simp [joinLanes]

theorem joinLanes_two (f : Nat → Byte) : joinLanes 2 f = 0#16 ++ f 1 ++ f 0 := by
  refine BitVec.eq_of_getLsbD_eq fun k hk => ?_
  rw [joinLanes_getLsbD]
  simp only [BitVec.getLsbD_append, BitVec.getLsbD_zero]
  split
  · simp [hk, show k < 8 * 2 by omega, show k / 8 = 0 by omega, show k % 8 = k by omega]
  split
  · simp [hk, show k < 8 * 2 by omega, show k / 8 = 1 by omega, show k % 8 = k - 8 by omega]
  · simp [show ¬ k < 8 * 2 by omega]

theorem joinLanes_four (f : Nat → Byte) : joinLanes 4 f = f 3 ++ f 2 ++ f 1 ++ f 0 := by
  refine BitVec.eq_of_getLsbD_eq fun k hk => ?_
  rw [joinLanes_getLsbD]
  simp only [BitVec.getLsbD_append]
  split
  · simp [hk, show k / 8 = 0 by omega, show k % 8 = k by omega]
  split
  · simp [hk, show k / 8 = 1 by omega, show k % 8 = k - 8 by omega]
  split
  · simp [hk, show k / 8 = 2 by omega, show k % 8 = k - 8 - 8 by omega]
  · simp [hk, show k / 8 = 3 by omega, show k % 8 = k - 8 - 8 - 8 by omega]

/-- A read of written elements outside the pending write set replies their joined contents. -/
theorem hostRead_elements_reply {s : State} (hp : s.params.Legal) {b : Buf}
    (hb : s.bufPending b = false) {i : Nat} {width : Width} (ha : i % width.bytes = 0)
    (hi : i + width.bytes ≤ b.size s.params) {f : Nat → Byte}
    (hf : ∀ j < width.bytes, s.cell b (i + j) = some (f j)) :
    ∃ u, hostRead (elemOff b i) width s = .next u ∧ u.reply = some (joinLanes width.bytes f) := by
  refine ⟨_, hostRead_elements hp hb ha hi, ?_⟩
  rw [State.replied_reply, joinLanes_congr fun j hj => State.operand_of_cell (hf j hj)]

/-- The core is idle, with parameters `p`, and elements `i .. i+n-1` of `b` hold the bytes `f` as the
buffer keeps them. A wide write and a run of one-byte writes both lead to such a state. -/
structure State.Stored (s : State) (p : Params) (b : Buf) (i n : Nat) (f : Nat → Byte) : Prop where
  params : s.params = p
  idle : s.pending = none
  cells : ∀ j < n, s.cell b (i + j) = some (b.kept (f j))

/-- Elements that hold bytes are read back as their joined value, at any width. -/
theorem State.Stored.hostRead_joined {s : State} {p : Params} (hp : p.Legal) {b : Buf} {i : Nat}
    {width : Width} {f : Nat → Byte} (h : s.Stored p b i width.bytes f)
    (ha : i % width.bytes = 0) (hi : i + width.bytes ≤ b.size p) :
    ∃ u, hostRead (elemOff b i) width s = .next u ∧
      u.reply = some (joinLanes width.bytes fun j => b.kept (f j)) := by
  obtain ⟨rfl, hidle, hcells⟩ := h
  exact hostRead_elements_reply hp (State.bufPending_of_idle hidle b) ha hi hcells

/-- Each of them is read back by a one-byte read. -/
theorem State.Stored.hostRead_byte {s : State} {p : Params} (hp : p.Legal) {b : Buf} {i n : Nat}
    {f : Nat → Byte} (h : s.Stored p b i n f) (hi : i + n ≤ b.size p) {j : Nat} (hj : j < n) :
    ∃ u, hostRead (elemOff b (i + j)) .byte s = .next u ∧
      u.reply = some ((b.kept (f j)).setWidth 32) := by
  have hone : s.Stored p b (i + j) Width.byte.bytes fun _ => f j := by
    refine ⟨h.params, h.idle, fun k hk => ?_⟩
    obtain rfl : k = 0 := Nat.lt_one_iff.1 hk
    exact h.cells j hj
  have hend : i + j + Width.byte.bytes ≤ b.size p := by
    simp only [Width.bytes]
    omega
  have hread := hone.hostRead_joined hp (Nat.mod_one _) hend
  rwa [Width.bytes, joinLanes_one] at hread

/-- A write of any width stores the lanes of its value. -/
theorem State.Stored.of_hostWrite {s t : State} (hp : s.params.Legal) (hidle : s.pending = none)
    {b : Buf} {i : Nat} {width : Width} {v : Word} (ha : i % width.bytes = 0)
    (hi : i + width.bytes ≤ b.size s.params) (h : hostWrite (elemOff b i) width v s = .next t) :
    t.Stored s.params b i width.bytes (lane v) := by
  rw [hostWrite_elements hp hidle ha hi] at h
  obtain rfl := Host.Outcome.next.inj h
  refine ⟨by simp, by simp [hidle], fun j hj => ?_⟩
  rw [State.acknowledged_cell, State.setLanes_cell_inside s b i v hj]

theorem lane_zero_setWidth (v : Byte) : lane (v.setWidth 32) 0 = v := by
  refine BitVec.eq_of_getLsbD_eq fun k hk => ?_
  simp [lane, hk, show k < 32 by omega]

/-- A one-byte write of the next byte extends a run of stored bytes by one. -/
theorem State.Stored.hostWrite_byte {s t : State} {p : Params} (hp : p.Legal) {b : Buf} {i n : Nat}
    {f : Nat → Byte} (h : s.Stored p b i n f) (hi : i + n < b.size p)
    (hw : hostWrite (elemOff b (i + n)) .byte ((f n).setWidth 32) s = .next t) :
    t.Stored p b i (n + 1) f := by
  obtain ⟨rfl, hidle, hcells⟩ := h
  rw [hostWrite_elements hp hidle (Nat.mod_one _) hi] at hw
  obtain rfl := Host.Outcome.next.inj hw
  refine ⟨by simp, by simp [hidle], fun j hj => ?_⟩
  rw [State.acknowledged_cell, Width.bytes]
  obtain hlt | rfl := Nat.lt_succ_iff_lt_or_eq.1 hj
  · rw [State.setLanes_cell, if_neg (by omega), hcells j hlt]
  · have hlast := s.setLanes_cell_inside b (i + j) ((f j).setWidth 32) Nat.zero_lt_one
    rwa [lane_zero_setWidth] at hlast

theorem State.Stored.empty {s : State} (hidle : s.pending = none) (b : Buf) (i : Nat)
    (f : Nat → Byte) : s.Stored s.params b i 0 f :=
  ⟨rfl, hidle, fun _ hj => absurd hj (Nat.not_lt_zero _)⟩

/-- Settles O44: wide and narrow writes store the same elements, which every width reads joined. -/
theorem mixedWidthViewsAgree : Obligations.MixedWidthViewsAgree := by
  intro s b i hp
  refine ⟨fun hb ha hi c0 c1 h0 h1 => ?_, fun hidle ha hi => ⟨fun v t ht j hj => ?_, ?_⟩,
    fun hidle ha hi => ⟨fun v t ht j hj => ?_, ?_⟩⟩
  · have hcells : ∀ j < Width.half.bytes, s.cell b (i + j) = some ([c0, c1].getD j 0#8) := by
      intro j hj
      match j, hj with
      | 0, _ => exact h0
      | 1, _ => exact h1
    obtain ⟨u, hu, hr⟩ := hostRead_elements_reply hp hb ha hi hcells
    exact ⟨u, hu, hr.trans (congrArg some (joinLanes_two _))⟩
  · exact (State.Stored.of_hostWrite hp hidle ha hi ht).hostRead_byte hp hi hj
  · intro v0 v1 t0 t1 w0 w1
    have r0 := State.Stored.empty hidle b i fun j => [v0, v1].getD j 0#8
    have r1 := r0.hostWrite_byte hp (by omega) w0
    have r2 := r1.hostWrite_byte hp (by omega) w1
    obtain ⟨u, hu, hr⟩ := r2.hostRead_joined (width := .half) hp ha hi
    exact ⟨u, hu, hr.trans (congrArg some (joinLanes_two _))⟩
  · exact (State.Stored.of_hostWrite hp hidle ha hi ht).hostRead_byte hp hi hj
  · intro v0 v1 v2 v3 t0 t1 t2 t3 w0 w1 w2 w3
    have r0 := State.Stored.empty hidle b i fun j => [v0, v1, v2, v3].getD j 0#8
    have r1 := r0.hostWrite_byte hp (by omega) w0
    have r2 := r1.hostWrite_byte hp (by omega) w1
    have r3 := r2.hostWrite_byte hp (by omega) w2
    have r4 := r3.hostWrite_byte hp (by omega) w3
    obtain ⟨u, hu, hr⟩ := r4.hostRead_joined (width := .word) hp ha hi
    exact ⟨u, hu, hr.trans (congrArg some (joinLanes_four _))⟩

/-! ## Bit cells -/

/-- A bit cell keeps bit 0 of the byte in its lane (R38, R59). -/
theorem Buf.kept_bits_lane (v : Word) (j : Nat) :
    Buf.bits.kept (lane v j) = if v.getLsbD (8 * j) then 1#8 else 0#8 := by
  have hbyte : ∀ c : Byte, c &&& 0x01#8 = if c.getLsbD 0 then 1#8 else 0#8 := by decide
  rw [Buf.kept, hbyte, lane, BitVec.getLsbD_extractLsb']
  rfl

/-- Settles O45: the four lanes of a word are four cells, each the bit 0 of its lane. -/
theorem bitCellsMoveOnePerLane : Obligations.BitCellsMoveOnePerLane := by
  intro s i v hp hidle ha hi
  refine ⟨?_, fun c0 c1 c2 c3 h0 h1 h2 h3 => ?_⟩
  · have hw := hostWrite_elements hp hidle (b := .bits) (width := .word) ha hi v
    have hcells := (State.Stored.of_hostWrite hp hidle ha hi hw).cells
    simp only [Buf.kept_bits_lane] at hcells
    exact ⟨_, hw, hcells 0 (by decide), hcells 1 (by decide), hcells 2 (by decide),
      hcells 3 (by decide)⟩
  · have hcells : ∀ j < Width.word.bytes,
        s.cell .bits (i + j) = some ([c0, c1, c2, c3].getD j 0#8) := by
      intro j hj
      match j, hj with
      | 0, _ => exact h0
      | 1, _ => exact h1
      | 2, _ => exact h2
      | 3, _ => exact h3
    obtain ⟨u, hu, hr⟩ := hostRead_elements_reply hp (State.bufPending_of_idle hidle .bits)
      ha hi hcells
    refine ⟨u, hu, hr.trans ?_⟩
    simp [Width.bytes, joinLanes]

/-! ## Reads -/

/-- A reply and a used-up draw do not show in a read of written elements and of registers outside the
pending write set. -/
theorem State.busRead_replied {s : State} {off : Word} {width : Width} (d : Word)
    (hcell : ∀ b, regionOf off.toNat = .buffer b → s.bufPending b = false ∧
      ∀ j < width.bytes, (s.cell b (off.toNat - b.base + j)).isSome = true)
    (hreg : ∀ r, regAt off.toNat = some r → s.regPending r = false) :
    (s.replied d).busRead off width = s.busRead off width := by
  unfold State.busRead
  cases hr : regionOf off.toNat with
  | registers =>
    cases ha : regAt off.toNat with
    | none => rfl
    | some r => simp [State.hostReg, hreg r ha]
  | buffer b =>
    obtain ⟨hb, hwritten⟩ := hcell b hr
    refine joinLanes_congr fun j hj => ?_
    simp only [State.hostElement, State.replied_bufPending, hb]
    exact State.operand_congr (s.replied_cell d b _) (.inr (hwritten j hj))
  | unmapped => rfl

/-- Settles O46: a read leaves its reply and one used-up draw, which the next read does not see. -/
theorem readsChangeNothingAndRepeat : Obligations.ReadsChangeNothingAndRepeat := by
  intro s t off width h
  obtain ⟨hadm, rfl⟩ := hostRead_cases h
  refine ⟨rfl, fun hcell hreg => ⟨_, hostRead_of_admitted hadm, ?_⟩⟩
  rw [State.replied_reply, State.replied_reply, State.busRead_replied _ hcell hreg]

end Sys2Proof.Machine
end

section
/-! PROOFS. The host's step as its next access, and the one reason for a step to stop (20_memory.md R58,
R61; 30_encoding.md R86 to R89). -/

namespace Sys2Proof.Machine

/-! ## Why a step stops -/

/-- An outcome that is no refusal and, if a fault, the bus error of an access that is not admitted. -/
def StopsOnlyAtBusError (p : Params) (o : Host.Outcome State Fault Refusal) : Prop :=
  (∀ r, o ≠ .refused r) ∧
    ∀ f, o = .fault f → ∃ off width kind, f = .hostAccessFault off width kind ∧
      admission p off width = some kind

theorem StopsOnlyAtBusError.of_next (p : Params) (t : State) : StopsOnlyAtBusError p (.next t) :=
  ⟨fun _ h => (nomatch h), fun _ h => (nomatch h)⟩

theorem StopsOnlyAtBusError.of_fault {p : Params} {off : Word} {width : Width} {kind : AccessFault}
    (h : admission p off width = some kind) :
    StopsOnlyAtBusError p (.fault (.hostAccessFault off width kind)) :=
  ⟨fun _ h => (nomatch h), fun _ hf => ⟨off, width, kind, (Host.Outcome.fault.inj hf).symm, h⟩⟩

theorem hostRead_stopsOnlyAtBusError (off : Word) (width : Width) (s : State) :
    StopsOnlyAtBusError s.params (hostRead off width s) := by
  cases h : admission s.params off width with
  | none => exact hostRead_of_admitted h ▸ .of_next _ _
  | some kind => exact hostRead_of_not_admitted h ▸ .of_fault h

theorem hostWrite_stopsOnlyAtBusError (off : Word) (width : Width) (v : Word) (s : State) :
    StopsOnlyAtBusError s.params (hostWrite off width v s) := by
  cases h : admission s.params off width with
  | none => exact hostWrite_of_admitted h ▸ .of_next _ _
  | some kind => exact hostWrite_of_not_admitted h v ▸ .of_fault h

/-- The core's step always ends in a next state: a command completes, and so does an illegal word. -/
theorem coreTurn_next (w : Word) (s : State) : ∃ t, coreTurn w s = .next t := by
  unfold coreTurn
  split
  · rename_i i _
    obtain ⟨r, h⟩ | ⟨n, g, v, h, -⟩ := exec_cases i s <;> exact ⟨_, h⟩
  · exact ⟨_, conclude_of_error rfl⟩

theorem hostTurn_stopsOnlyAtBusError (s : State) : StopsOnlyAtBusError s.params (hostTurn s) := by
  unfold hostTurn
  split
  · exact .of_next _ _
  · exact hostRead_stopsOnlyAtBusError _ _ { s with host := _ }
  · exact hostWrite_stopsOnlyAtBusError _ _ _ { s with host := _ }
  · split <;> exact hostRead_stopsOnlyAtBusError _ _ { s with host := _ }
  · exact hostRead_stopsOnlyAtBusError _ _ { s with host := _ }
  · exact .of_next _ _

/-- Settles O57: the core's step does not stop, and the host's is at most one access. -/
theorem onlyABusErrorStopsAStep : Obligations.OnlyABusErrorStopsAStep := by
  intro s
  show StopsOnlyAtBusError s.params (step s)
  cases hp : s.pending with
  | none => exact step_of_idle hp ▸ hostTurn_stopsOnlyAtBusError s
  | some w =>
    cases hm : s.mover with
    | core =>
      obtain ⟨t, ht⟩ := coreTurn_next w s.takeTurn
      exact (step_of_core hp hm).trans ht ▸ .of_next _ _
    | host => exact step_of_host hp hm ▸ hostTurn_stopsOnlyAtBusError s.takeTurn

/-! ## The host's next access -/

theorem hostTurn_of_read {s : State} {off : Word} {width : Width} {rest : List HostStep}
    (h : s.host = .read off width :: rest) :
    hostTurn s = hostRead off width { s with host := rest } := by
  simp only [hostTurn, h]

theorem hostTurn_of_write {s : State} {off : Word} {width : Width} {v : Word}
    {rest : List HostStep} (h : s.host = .write off width v :: rest) :
    hostTurn s = hostWrite off width v { s with host := rest } := by
  simp only [hostTurn, h]

/-- Bit 0 of a read of `STATUS` is `BUSY`, in every state (R25, R196). -/
theorem State.busRead_status_busy (s : State) :
    (s.busRead (regOff .status) .word).getLsbD 0 = s.status.busy := by
  rw [State.busRead_register, State.hostReg, s.regPending_eq_false (by decide)]
  exact s.status.word_flags.1

theorem hostTurn_of_wait {s : State} {rest : List HostStep} (h : s.host = .wait :: rest) :
    hostTurn s = hostRead (regOff .status) .word
      { s with host := if s.status.busy then .wait :: rest else rest } := by
  simp only [hostTurn, h, State.busRead_status_busy]
  split <;> rfl

/-- Where the host moves, the step is the host's, after the schedule's choice is used up. -/
theorem step_eq_hostTurn {s u : State} (hh : s.host ≠ [])
    (hu : s.pending = none ∧ u = s ∨
      s.pending ≠ none ∧ s.turns.head? = some .host ∧ u = { s with turns := s.turns.tail }) :
    step s = hostTurn u ∧ u.host = s.host := by
  obtain ⟨hp, rfl⟩ | ⟨hp, ht, rfl⟩ := hu
  · exact ⟨step_of_idle hp, rfl⟩
  · obtain ⟨w, hw⟩ := Option.ne_none_iff_exists'.1 hp
    exact ⟨step_of_host hw (State.mover_eq_host hh ht), rfl⟩

/-- Settles O59: the step is the host's, and the head of its queue says which access it is. -/
theorem hostMovesMakeTheirNextAccess : Obligations.HostMovesMakeTheirNextAccess := by
  intro s u rest hu
  have hstep : ∀ {a : HostStep}, s.host = a :: rest → step s = hostTurn u ∧ u.host = a :: rest := by
    intro a h
    obtain ⟨hs, huh⟩ := step_eq_hostTurn (by simp [h]) hu
    exact ⟨hs, huh.trans h⟩
  have hstatus : u.status = s.status := by
    obtain ⟨-, rfl⟩ | ⟨-, -, rfl⟩ := hu <;> rfl
  refine ⟨fun off width h => ?_, fun off width v h => ?_, fun h => ?_⟩
  · obtain ⟨hs, huh⟩ := hstep h
    rw [hs, hostTurn_of_read huh]
  · obtain ⟨hs, huh⟩ := hstep h
    rw [hs, hostTurn_of_write huh]
  · obtain ⟨hs, huh⟩ := hstep h
    rw [hs, hostTurn_of_wait huh, hstatus]

end Sys2Proof.Machine
end

section
/-! PROOFS. The command word: its three fields, what decodes to a command and what does not, and the
match and mask table (30_encoding.md R80 to R87). -/

namespace Sys2Proof

/-! ## The fields of a word -/

@[simp] theorem fieldOp_append (count : Half) (rsv : BitVec 12) (op : BitVec 4) :
    fieldOp (count ++ rsv ++ op) = op :=
  BitVec.extractLsb'_append_eq_right

@[simp] theorem fieldRsv_append (count : Half) (rsv : BitVec 12) (op : BitVec 4) :
    fieldRsv (count ++ rsv ++ op) = rsv := by
  rw [fieldRsv, BitVec.extractLsb'_append_eq_of_le (by decide)]
  exact BitVec.extractLsb'_append_eq_right

@[simp] theorem fieldCount_append (count : Half) (rsv : BitVec 12) (op : BitVec 4) :
    fieldCount (count ++ rsv ++ op) = count := by
  rw [fieldCount, BitVec.extractLsb'_append_eq_of_le (by decide)]
  exact BitVec.extractLsb'_append_eq_left

/-- The three fields are all of the word (R80). -/
theorem append_fields (w : Word) : fieldCount w ++ fieldRsv w ++ fieldOp w = w := by
  have hupper : w.extractLsb' 16 16 ++ w.extractLsb' 4 12 = w.extractLsb' 4 28 :=
    BitVec.extractLsb'_append_extractLsb'_eq_extractLsb' rfl
  rw [fieldCount, fieldRsv, fieldOp, hupper]
  exact BitVec.extractLsb'_append_extractLsb'

theorem eq_formatC {w : Word} (hrsv : fieldRsv w = 0#12) (hop : fieldOp w = 0x5#4) :
    w = formatC (fieldCount w) := by
  rw [formatC, ← hrsv, ← hop, append_fields]

theorem eq_formatN {w : Word} (hrsv : fieldRsv w = 0#12) (hcount : fieldCount w = 0#16) :
    w = formatN (fieldOp w) := by
  rw [formatN, ← hrsv, ← hcount, append_fields]

/-! ## Decoding the two formats -/

/-- A format C word is `EXTRACT` of its count (R82). -/
theorem decode_formatC (count : Half) : decode (formatC count) = .legal (.extract count.toNat) := by
  simp [decode, formatC]

/-- Any other opcode, with count 0, is looked up in the opcode map (R81). -/
theorem decode_formatN {op : BitVec 4} (h : op ≠ 0x5#4) :
    decode (formatN op) = decodeFormatN op := by
  simp only [decode, formatN, fieldRsv_append, fieldOp_append, fieldCount_append, ne_eq,
    not_true_eq_false, if_false, h]

/-- Settles O2: each command's word has one of the two formats, and a well-formed count survives its
16 bits. -/
theorem encodedCommandDecodesToItself : Obligations.EncodedCommandDecodesToItself := by
  intro i hi
  cases i with
  | extract count =>
    have hcount : (BitVec.ofNat 16 count).toNat = count :=
      Nat.mod_eq_of_lt (of_decide_eq_true hi)
    rw [encode, decode_formatC, hcount]
  | lock | unlock | b2b | embed | encode | decode => exact decode_formatN (by decide)

/-! ## The words that decode to a command -/

/-- The opcode map names a command by its own opcode (R81). -/
theorem encode_of_decodeFormatN {op : BitVec 4} {i : Instr} (h : decodeFormatN op = .legal i) :
    i.wellFormed = true ∧ encode i = formatN op := by
  unfold decodeFormatN at h
  repeat' split at h
  all_goals cases h
  all_goals subst op; exact ⟨rfl, rfl⟩

/-- Everything that decodes to a command: a format C word, to `EXTRACT` of its count, or a format N
word, by the opcode map. -/
theorem decode_legal_cases {w : Word} {i : Instr} (h : decode w = .legal i) :
    (∃ count, w = formatC count ∧ i = .extract count.toNat) ∨
    (∃ op, w = formatN op ∧ decodeFormatN op = .legal i) := by
  unfold decode at h
  split at h
  case isTrue => cases h
  case isFalse hrsv =>
    rw [not_not] at hrsv
    split at h
    case isTrue hop =>
      cases h
      exact .inl ⟨_, eq_formatC hrsv hop, rfl⟩
    case isFalse =>
      split at h
      case isTrue => cases h
      case isFalse hcount => exact .inr ⟨_, eq_formatN hrsv (not_not.1 hcount), h⟩

/-- Settles O3: in either format the word is the word of its command. -/
theorem onlyItsOwnWordDecodesToACommand : Obligations.OnlyItsOwnWordDecodesToACommand := by
  intro w i h
  obtain ⟨count, rfl, rfl⟩ | ⟨op, rfl, hop⟩ := decode_legal_cases h
  · refine ⟨decide_eq_true count.isLt, ?_⟩
    rw [encode, BitVec.ofNat_toNat, BitVec.setWidth_eq]
  · exact encode_of_decodeFormatN hop

/-- Settles O1: each word is one of the two formats, or breaks the rule named. -/
theorem wordsOfTheSpecDecodeAsItSays : Obligations.WordsOfTheSpecDecodeAsItSays := by
  refine ⟨decode_formatN (op := 1#4) (by decide), decode_formatN (op := 4#4) (by decide),
    decode_formatC 3#16, decode_formatC 65535#16, decode_formatN (op := 7#4) (by decide), ?_⟩
  decide

/-! ## The match and mask table -/

/-- The word of any well-formed command matches the one row of its mnemonic (R81). -/
theorem Laws.OwnRow.of_instr (i : Instr) : Laws.OwnRow.Statement i := by
  cases i with
  | lock => exact lock
  | unlock => exact unlock
  | b2b => exact b2b
  | embed => exact embed
  | extract count => exact extract count
  | encode => exact encode
  | decode => exact decode

/-- The row of `EXTRACT` fixes `OP` and `RSV`, and leaves `COUNT` free. -/
theorem fields_of_extract_row {w : Word} (h : w &&& 0x0000FFFF#32 = 0x00000005#32) :
    fieldRsv w = 0#12 ∧ fieldOp w = 0x5#4 := by
  have hrsv := congrArg fieldRsv h
  have hop := congrArg fieldOp h
  rw [fieldRsv, BitVec.extractLsb'_and] at hrsv
  rw [fieldOp, BitVec.extractLsb'_and] at hop
  exact ⟨BitVec.and_allOnes.symm.trans hrsv, BitVec.and_allOnes.symm.trans hop⟩

/-- A row whose mask is full covers no word but its pattern. -/
theorem OpcodeRow.eq_pattern_of_covers {r : OpcodeRow} {w : Word} (hm : r.mask = 0xFFFFFFFF#32)
    (h : r.covers w = true) : w = r.pattern := by
  rw [OpcodeRow.covers, hm, beq_iff_eq] at h
  exact BitVec.and_allOnes.symm.trans h

/-- A row is that of `EXTRACT`, or has a full mask and a legal word as its pattern (R81). -/
theorem opcodeRows_cases {r : OpcodeRow} (hr : r ∈ opcodeRows) :
    (r.pattern = 0x00000005#32 ∧ r.mask = 0x0000FFFF#32) ∨
    (r.mask = 0xFFFFFFFF#32 ∧ (decode r.pattern).instr? ≠ none) := by
  revert r
  decide

/-- A word that some row covers is legal. -/
theorem decode_legal_of_covers {w : Word} {r : OpcodeRow} (hr : r ∈ opcodeRows)
    (h : r.covers w = true) : (decode w).instr? ≠ none := by
  obtain ⟨hp, hm⟩ | ⟨hm, hlegal⟩ := opcodeRows_cases hr
  · rw [OpcodeRow.covers, hp, hm, beq_iff_eq] at h
    obtain ⟨hrsv, hop⟩ := fields_of_extract_row h
    rw [eq_formatC hrsv hop, decode_formatC]
    exact Option.some_ne_none _
  · rwa [OpcodeRow.eq_pattern_of_covers hm h]

/-- Settles O4: a legal word is the word of its command, and an illegal word matches no row, because
every row's words are legal. -/
theorem legalWordsMatchExactlyOneRow : Obligations.LegalWordsMatchExactlyOneRow := by
  intro w
  cases h : decode w with
  | legal i =>
    obtain ⟨hwf, rfl⟩ := onlyItsOwnWordDecodesToACommand w i h
    exact Laws.OwnRow.of_instr i hwf
  | illegal why =>
    have hnone : opcodeRows.filter (fun r => r.covers w) = [] := by
      refine List.filter_eq_nil_iff.2 fun r hr hc => decode_legal_of_covers hr hc ?_
      rw [h, Decoded.instr?]
    rw [hnone, List.map_nil]

/-! ## Illegal words -/

theorem Decoded.exists_illegal_iff (d : Decoded) :
    (∃ why, d = .illegal why) ↔ d.instr? = none := by
  cases d <;> simp [Decoded.instr?]

/-- The opcodes outside the map, of which 5 is the one of format C (R81, R83). -/
theorem decodeFormatN_illegal_iff (op : BitVec 4) :
    (∃ why, decodeFormatN op = .illegal why) ↔ op = 0#4 ∨ 8 ≤ op.toNat ∨ op = 0x5#4 := by
  rw [Decoded.exists_illegal_iff]
  revert op
  decide

/-- The grounds of R83. -/
theorem decode_illegal_iff (w : Word) :
    (∃ why, decode w = .illegal why) ↔ fieldRsv w ≠ 0#12 ∨ fieldOp w = 0#4 ∨
      8 ≤ (fieldOp w).toNat ∨ (fieldOp w ≠ 0x5#4 ∧ fieldCount w ≠ 0#16) := by
  unfold decode
  by_cases hrsv : fieldRsv w = 0#12
  · by_cases hop : fieldOp w = 0x5#4
    · simp [hrsv, hop]
    · by_cases hcount : fieldCount w = 0#16
      · simp [hrsv, hop, hcount, decodeFormatN_illegal_iff]
      · simp [hrsv, hop, hcount]
  · simp [hrsv]

/-! ## The bytes of a word -/

/-- The four bytes of a word, least significant first, make the word (R57). -/
theorem wordOfBytes_extractLsb' (w : Word) : wordOfBytes (w.extractLsb' 0 8) (w.extractLsb' 8 8)
    (w.extractLsb' 16 8) (w.extractLsb' 24 8) = w := by
  have hupper : w.extractLsb' 24 8 ++ w.extractLsb' 16 8 = w.extractLsb' 16 16 :=
    BitVec.extractLsb'_append_extractLsb'_eq_extractLsb' rfl
  have hmiddle : w.extractLsb' 16 16 ++ w.extractLsb' 8 8 = w.extractLsb' 8 24 :=
    BitVec.extractLsb'_append_extractLsb'_eq_extractLsb' rfl
  rw [wordOfBytes, hupper, hmiddle]
  exact BitVec.extractLsb'_append_extractLsb'

theorem decodeBytes_of_length_ne {bytes : List Byte} (h : bytes.length ≠ 4) :
    decodeBytes bytes = .illegal .notOneWord := by
  unfold decodeBytes
  split
  · exact absurd rfl h
  · rfl

/-- Settles O5: the bytes of a word make the word again, and no other byte string is looked at. -/
theorem commandIsExactlyFourBytes : Obligations.CommandIsExactlyFourBytes :=
  ⟨fun w => congrArg decode (wordOfBytes_extractLsb' w), fun _ => decodeBytes_of_length_ne⟩

end Sys2Proof
end

section
/-! PROOFS. Issue of a command, the step that performs it, and one round of `copy` (30_encoding.md R83 to
R89; 60_exceptions.md R169). -/

namespace Sys2Proof.Machine

/-! ## Issue -/

/-- A write to `CMD` of an idle core is the acceptance of the word (R85). -/
theorem hostWrite_cmd_of_idle {s : State} (h : s.pending = none) (w : Word) :
    hostWrite (regOff .cmd) .word w s = .next (s.accept w).acknowledged :=
  hostWrite_register_of_idle h .cmd w

/-- A write to any register but `STATUS` while a command is pending is dropped and sets `OVR` (R194). -/
theorem hostWrite_register_of_pending {s : State} (h : s.pending ≠ none) {r : Reg}
    (hr : r ≠ .status) (v : Word) : hostWrite (regOff r) .word v s =
      .next (State.acknowledged { s with status := s.status.overrun }) := by
  have hoff : (regOff r).toNat ≠ Reg.status.offset := by
    cases r with
    | status => contradiction
    | _ => decide
  rw [hostWrite_of_admitted (admission_register _ _), State.busWrite_of_pending h,
    State.pendingWrite, if_neg hoff]

/-- Settles O7: acceptance while idle, a dropped write while a command is pending. -/
theorem cmdWriteIsAcceptedWhenIdle : Obligations.CmdWriteIsAcceptedWhenIdle :=
  fun _ w => ⟨fun h => hostWrite_cmd_of_idle h w,
    fun h => hostWrite_register_of_pending h (by decide) w⟩

/-! ## The core's step on the pending word -/

theorem coreTurn_of_legal {w : Word} {i : Instr} (h : decode w = .legal i) (s : State) :
    coreTurn w s = exec i s := by
  simp [coreTurn, h]

/-- An illegal word raises `IllegalCommand` with itself as the detail (R169). -/
theorem coreTurn_of_illegal {w : Word} {why : Illegal} (h : decode w = .illegal why) (s : State) :
    coreTurn w s = .next (s.raise ⟨.illegalCommand, w⟩) := by
  simp only [coreTurn, h]
  exact conclude_of_error rfl

/-- A raised error is an error completion that writes nothing else (R10, R164). -/
theorem State.raise_failedWith (s : State) (e : ErrorKind) (info : Word) :
    FailedWith s (s.raise ⟨e, info⟩) e info := by
  rw [FailedWith, State.raise, State.complete, Status.completed_code]

/-- Settles O6: the grounds are those of the decoder, acceptance does not look at the word, and the
core's step on it raises the error from the state at acceptance. -/
theorem illegalWordsCompleteWithIllegalCommand :
    Obligations.IllegalWordsCompleteWithIllegalCommand := by
  intro w
  refine ⟨decode_illegal_iff w, fun s ⟨why, hw⟩ => ⟨fun hidle => ?_, fun hp hcore => ?_⟩⟩
  · exact ⟨_, hostWrite_cmd_of_idle hidle w, rfl, rfl, rfl⟩
  · rw [step_of_core hp (s.mover_eq_core_iff.2 hcore), coreTurn_of_illegal hw]
    exact ⟨_, rfl, s.takeTurn.raise_failedWith .illegalCommand w⟩

theorem step_of_legal {s : State} {w : Word} {i : Instr} (hp : s.pending = some w)
    (hw : decode w = .legal i) (hcore : s.host = [] ∨ s.turns.head? ≠ some .host) :
    step s = exec i s.takeTurn := by
  rw [step_of_core hp (s.mover_eq_core_iff.2 hcore), coreTurn_of_legal hw]

@[simp] theorem State.placeCommand_cell (s : State) (w : Word) (b : Buf) (j : Nat) :
    (s.placeCommand w).cell b j = s.cell b j := by
  cases b <;> rfl

/-- All 32 bits of the word are placed. -/
theorem State.withFetchWord_eq_placeCommand (s : State) {w : Nat} (hw : w < 2 ^ 32) :
    s.withFetchWord 32 w = s.placeCommand (BitVec.ofNat 32 w) := by
  rw [State.withFetchWord, Nat.mod_eq_of_lt hw]

/-- Settles O8: a placed word is a pending one with an empty schedule, of which no choice can be used
up. -/
theorem stepPerformsThePendingCommand : Obligations.StepPerformsThePendingCommand := by
  refine ⟨fun s w i hp hw hcore => step_of_legal hp hw hcore, fun s w i hlt hw => ?_⟩
  rw [s.withFetchWord_eq_placeCommand hlt]
  have hcore : (s.placeCommand (BitVec.ofNat 32 w)).turns.head? ≠ some .host := nofun
  exact ⟨step_of_legal rfl hw (.inr hcore), rfl, s.placeCommand_cell _⟩

/-! ## One round of `copy` -/

/-- The host reads the sample, and the write of what it read becomes due (R89). -/
theorem hostTurn_of_copySample {s : State} {i : Nat} {rest : List HostStep}
    (h : s.host = .copySample i :: rest) :
    hostTurn s = hostRead (elemOff .pixDst i) .byte { s with
      host := .write (elemOff .pixSrc i) .byte (s.busRead (elemOff .pixDst i) .byte) :: rest } := by
  simp only [hostTurn, h]

/-- A one-byte read of a written element outside the pending write set returns the byte. -/
theorem State.busRead_byte_of_cell {s : State} (hp : s.params.Legal) {b : Buf}
    (hb : s.bufPending b = false) {i : Nat} (hi : i < b.size s.params) {v : Byte}
    (hv : s.cell b i = some v) : s.busRead (elemOff b i) .byte = v.setWidth 32 := by
  rw [State.busRead_element hp b hi, Width.bytes, joinLanes_one, State.hostElement, hb]
  exact congrArg _ (State.operand_of_cell hv)

/-- A one-byte read of a written element outside the pending write set replies the byte. -/
theorem hostRead_byte_of_cell {s : State} (hp : s.params.Legal) {b : Buf}
    (hb : s.bufPending b = false) {i : Nat} (hi : i < b.size s.params) {v : Byte}
    (hv : s.cell b i = some v) :
    hostRead (elemOff b i) .byte s = .next (s.replied (v.setWidth 32)) := by
  rw [hostRead_of_admitted (admission_element hp b (Nat.mod_one i) hi),
    State.busRead_byte_of_cell hp hb hi hv]

/-- A one-byte write to an idle core's buffer stores the byte. -/
theorem State.setLanes_one (s : State) (b : Buf) (i : Nat) (v : Byte) :
    s.setLanes b i (v.setWidth 32) 1 = s.setCell b i v := by
  simp only [State.setLanes, Nat.add_zero, lane_zero_setWidth]

/-- The first step of a round: the host has read the sample, and its write is due. -/
theorem step_of_copySample {s : State} (hp : s.params.Legal) (hidle : s.pending = none) {i : Nat}
    (hi : i < s.params.sampleMax) {rest : List HostStep} (h : s.host = .copySample i :: rest)
    {v : Byte} (hv : s.cell .pixDst i = some v) :
    ∃ t, step s = .next t ∧ t.params = s.params ∧ t.pending = none ∧
      t.host = .write (elemOff .pixSrc i) .byte (v.setWidth 32) :: rest ∧
      ∀ b p, t.cell b p = s.cell b p := by
  have hb : s.bufPending .pixDst = false := State.bufPending_of_idle hidle .pixDst
  have hturn := hostTurn_of_copySample h
  rw [State.busRead_byte_of_cell hp hb hi hv] at hturn
  have hread := hostRead_byte_of_cell (b := .pixDst) (s := { s with
    host := .write (elemOff .pixSrc i) .byte (v.setWidth 32) :: rest }) hp hb hi hv
  exact ⟨_, (step_of_idle hidle).trans (hturn.trans hread), rfl, hidle, rfl,
    State.cell_congr rfl rfl rfl rfl rfl rfl⟩

/-- A due one-byte write to an idle core stores its byte, and changes no other element. -/
theorem step_of_write_byte {s : State} (hp : s.params.Legal) (hidle : s.pending = none) {b : Buf}
    {i : Nat} (hi : i < b.size s.params) {v : Byte} {rest : List HostStep}
    (h : s.host = .write (elemOff b i) .byte (v.setWidth 32) :: rest) :
    ∃ u, step s = .next u ∧ u.host = rest ∧ u.cell b i = some (b.kept v) ∧
      ∀ b' p, ¬ (b' = b ∧ p = i) → u.cell b' p = s.cell b' p := by
  have hwrite := hostWrite_elements (s := { s with host := rest }) (width := .byte) hp hidle
    (Nat.mod_one i) hi (v.setWidth 32)
  rw [Width.bytes, State.setLanes_one] at hwrite
  refine ⟨_, (step_of_idle hidle).trans ((hostTurn_of_write h).trans hwrite), ?_, ?_,
    fun b' p hout => ?_⟩
  · rw [State.acknowledged_host, State.setCell_host]
  · rw [State.acknowledged_cell, State.cell_setCell, if_pos ⟨rfl, rfl⟩]
  · rw [State.acknowledged_cell, State.cell_setCell, if_neg hout]
    exact State.cell_congr rfl rfl rfl rfl rfl rfl b' p

/-- Settles O60: the first step reads the sample and makes its write due, the second stores it. -/
theorem copyRoundMovesOneSample : Obligations.CopyRoundMovesOneSample := by
  intro s i v rest hp hidle hhost hi hv
  obtain ⟨t, hread, hparams, htidle, hthost, htcell⟩ := step_of_copySample hp hidle hi hhost hv
  rw [← hparams] at hp hi
  obtain ⟨u, hwrite, huhost, hstored, hkept⟩ :=
    step_of_write_byte (b := .pixSrc) hp htidle hi hthost
  exact ⟨t, u, hread, hwrite, hstored, huhost,
    fun b p hout => (hkept b p hout).trans (htcell b p)⟩

end Sys2Proof.Machine
end

section
/-! PROOFS. The checks of the cipher commands, the states in which `LOCK` and `UNLOCK` end, and the two
round trips (40_cipher.md; 60_exceptions.md R160 to R164). -/

namespace Sys2Proof.Machine

/-! ## What a check raises -/

theorem keyError_of_zero {s : State} (h : s.keyLen.toNat = 0) :
    keyError s = some ⟨.emptyKey, 0x00000000#32⟩ := if_pos h

theorem keyError_of_gt {s : State} (h0 : s.keyLen.toNat ≠ 0)
    (h : s.params.keyMax < s.keyLen.toNat) :
    keyError s = some ⟨.limitExceeded, BitVec.ofNat 32 s.keyLen.toNat⟩ := by
  rw [keyError, if_neg h0, if_pos h]

theorem messageLengthError_of_lt {n : Nat} (h : 255 < n) :
    messageLengthError n = some ⟨.messageTooLong, BitVec.ofNat 32 n⟩ := if_pos h

/-- The first `0xFF` of the message is reported with its index (R102). -/
theorem rangeError_of_msg {s : State} {n p : Nat} (k : Nat) (hp : p < n)
    (hv : s.operand .msg p = 0xFF#8) (hfirst : ∀ q < p, s.operand .msg q ≠ 0xFF#8) :
    rangeError s n k = some ⟨.unsupportedCharacter, BitVec.ofNat 32 p⟩ := by
  rw [rangeError, (firstUnsupported_eq_some_iff s .msg n p).2 ⟨hp, hv, hfirst⟩]

/-- Behind a supported message, the first `0xFF` of the key is reported with its index and bit 16. -/
theorem rangeError_of_key {s : State} {n k p : Nat} (hm : ∀ i < n, s.operand .msg i ≠ 0xFF#8)
    (hp : p < k) (hv : s.operand .key p = 0xFF#8) (hfirst : ∀ q < p, s.operand .key q ≠ 0xFF#8) :
    rangeError s n k =
      some ⟨.unsupportedCharacter, 0x00010000#32 ||| BitVec.ofNat 32 p⟩ := by
  rw [rangeError, (firstUnsupported_eq_none_iff s .msg n).2 hm,
    (firstUnsupported_eq_some_iff s .key k p).2 ⟨hp, hv, hfirst⟩]

theorem rangeError_kind {s : State} {n k : Nat} {r : Raise} (h : rangeError s n k = some r) :
    r.kind = .unsupportedCharacter := by
  unfold rangeError at h
  repeat' split at h
  all_goals cases h
  all_goals rfl

/-- On written bytes the range check is a check of the buffers' contents. -/
theorem rangeError_eq_none_iff_cell {s : State} {n k : Nat} (hm : s.Written .msg n)
    (hk : s.Written .key k) : rangeError s n k = none ↔
      (∀ i < n, s.cell .msg i ≠ some 0xFF#8) ∧ ∀ j < k, s.cell .key j ≠ some 0xFF#8 := by
  have hcell : ∀ {b m}, s.Written b m →
      ((∀ i < m, s.operand b i ≠ 0xFF#8) ↔ ∀ i < m, s.cell b i ≠ some 0xFF#8) := by
    intro b m hw
    refine forall₂_congr fun i hi => ?_
    rw [State.cell_of_written hw hi, ne_eq, ne_eq, Option.some_inj]
  rw [rangeError_eq_none_iff, hcell hm, hcell hk]

/-! ## Commands that end with an error -/

/-- A raised error in the terms of the statements. -/
theorem failedWith_of_raise {o : Host.Outcome State Fault Refusal} {s : State} {e : ErrorKind}
    {info : Word} (h : o = .next (s.raise ⟨e, info⟩)) :
    ∃ t, o = .next t ∧ FailedWith s t e info :=
  ⟨_, h, s.raise_failedWith e info⟩

/-- `LOCK`, `UNLOCK` and `ENCODE` check the key first. -/
theorem exec_of_keyError {i : Instr} {s : State} {r : Raise}
    (hi : i = .lock ∨ i = .unlock ∨ i = .encode) (hk : keyError s = some r) :
    exec i s = .next (s.raise r) := by
  obtain rfl | rfl | rfl := hi <;> exact conclude_of_error (by rw [hk, firstError_some])

/-- Behind a valid key, each of the three checks its length. -/
theorem exec_of_lengthError {i : Instr} {s : State} {r : Raise} (hk : keyError s = none)
    (hi : i = .lock ∧ limitError s.msgLen.toNat s.params.bufBytes = some r ∨
      i = .unlock ∧ limitError s.dataLen.toNat s.params.bufBytes = some r ∨
      i = .encode ∧ messageLengthError s.msgLen.toNat = some r) :
    exec i s = .next (s.raise r) := by
  obtain ⟨rfl, hl⟩ | ⟨rfl, hl⟩ | ⟨rfl, hl⟩ := hi <;>
    exact conclude_of_error (by rw [hk, hl, firstError_none, firstError_some])

/-- Behind a valid key and length, `LOCK` and `ENCODE` check the range of the bytes. -/
theorem exec_of_rangeError {i : Instr} {s : State} {r : Raise} (hk : keyError s = none)
    (hi : i = .lock ∧ s.msgLen.toNat ≤ s.params.bufBytes ∨ i = .encode ∧ s.msgLen.toNat ≤ 255)
    (hr : rangeError s s.msgLen.toNat s.keyLen.toNat = some r) :
    exec i s = .next (s.raise r) := by
  obtain ⟨rfl, hn⟩ | ⟨rfl, hn⟩ := hi
  · exact conclude_of_error
      (by simp only [hk, (limitError_eq_none_iff _ _).2 hn, hr, firstError_none, firstError_some])
  · exact conclude_of_error
      (by simp only [hk, (messageLengthError_eq_none_iff _).2 hn, hr, firstError_none,
        firstError_some])

/-- Settles O20: the three commands check the key first, and their length next. -/
theorem keyAndLengthErrorsComeFirst : Obligations.KeyAndLengthErrorsComeFirst := by
  refine ⟨fun e => by cases e <;> rfl, fun s => ⟨fun i hi => ⟨fun h0 => ?_, fun h0 hmax => ?_⟩,
    fun hpos hmax => ?_⟩⟩
  · exact failedWith_of_raise (exec_of_keyError hi (keyError_of_zero h0))
  · exact failedWith_of_raise (exec_of_keyError hi (keyError_of_gt h0 hmax))
  · have hk : keyError s = none := (keyError_eq_none_iff s).2 ⟨hpos, hmax⟩
    refine ⟨fun hn => ?_, fun hn => ?_, fun hn => ?_⟩
    · exact failedWith_of_raise (exec_of_lengthError hk (.inl ⟨rfl, limitError_of_lt hn⟩))
    · exact failedWith_of_raise (exec_of_lengthError hk (.inr (.inl ⟨rfl, limitError_of_lt hn⟩)))
    · exact failedWith_of_raise
        (exec_of_lengthError hk (.inr (.inr ⟨rfl, messageLengthError_of_lt hn⟩)))

/-! ## Who reports `UnsupportedCharacter` -/

/-- A check that raises, if anything, another error than `UnsupportedCharacter`. -/
def NotRangeCheck (c : Option Raise) : Prop := ∀ r, c = some r → r.kind ≠ .unsupportedCharacter

theorem keyError_notRangeCheck (s : State) : NotRangeCheck (keyError s) := by
  intro r h
  unfold keyError at h
  repeat' split at h
  all_goals cases h
  all_goals exact nofun

theorem limitError_notRangeCheck (v bound : Nat) : NotRangeCheck (limitError v bound) := by
  intro r h
  unfold limitError at h
  split at h <;> cases h
  exact nofun

theorem sampleLimitError_notRangeCheck (s : State) : NotRangeCheck (sampleLimitError s) :=
  limitError_notRangeCheck _ _

theorem capacityError_notRangeCheck (s : State) (n : Nat) : NotRangeCheck (capacityError s n) := by
  intro r h
  unfold capacityError at h
  split at h <;> cases h
  exact nofun

theorem ErrorKind.code_eq_unsupportedCharacter_iff (e : ErrorKind) :
    e.code = ErrorKind.unsupportedCharacter.code ↔ e = .unsupportedCharacter := by
  cases e <;> decide

/-- A command none of whose checks is the range check does not report `UnsupportedCharacter`. -/
theorem conclude_errcode_ne {s w t : State} {cs : List (Option Raise)}
    (h : conclude s cs w = .next t) (hcs : ∀ c ∈ cs, NotRangeCheck c) :
    t.status.errcode ≠ ErrorKind.unsupportedCharacter.code := by
  obtain ⟨r, hr, rfl⟩ | ⟨-, rfl⟩ := conclude_cases h
  · exact mt (ErrorKind.code_eq_unsupportedCharacter_iff r.kind).1
      (hcs _ (firstError_mem hr) r rfl)
  · exact (ErrorKind.code_ne_zero _).symm

/-- Settles O21: the range check finds the first unsupported byte, and is a check of no other command. -/
theorem rangeCheckReportsTheFirstUnsupportedByte :
    Obligations.RangeCheckReportsTheFirstUnsupportedByte := by
  refine ⟨fun i s hi hpos hmax => ?_, fun i s t hlock hencode h => ?_⟩
  · have hk : keyError s = none := (keyError_eq_none_iff s).2 ⟨hpos, hmax⟩
    refine ⟨fun p hp hv hfirst => ?_, fun p hp hm hv hfirst => ?_⟩
    · exact failedWith_of_raise (exec_of_rangeError hk hi (rangeError_of_msg _ hp hv hfirst))
    · exact failedWith_of_raise (exec_of_rangeError hk hi (rangeError_of_key hm hp hv hfirst))
  · have hkey := keyError_notRangeCheck s
    have hlim := limitError_notRangeCheck
    have hsample := sampleLimitError_notRangeCheck s
    have hcap := capacityError_notRangeCheck s
    cases i with
    | lock => contradiction
    | encode => contradiction
    | unlock => exact conclude_errcode_ne h (by simp [hkey, hlim])
    | b2b => exact conclude_errcode_ne h (by simp [hlim])
    | embed => exact conclude_errcode_ne h (by simp [hlim, hsample, hcap])
    | extract c => exact conclude_errcode_ne h (by simp [hlim, hsample, hcap])
    | decode => exact conclude_errcode_ne h (by simp [hkey, hsample, hcap])

/-! ## The state in which a successful command ends -/

/-- The command `i` has written the block `g 0, ..., g (n - 1)` and the length `v`, and has completed:
the second way for a command to end in `exec_cases`. -/
def State.finished (s : State) (i : Instr) (n : Nat) (g : Nat → Byte) (v : Half) : State :=
  (i.setLength v (s.setBlock i.destBuf n g)).complete 0#4 0x00000000#32

section Finished

variable (s : State) (i : Instr) (n : Nat) (g : Nat → Byte) (v : Half)

@[simp] theorem Instr.setLength_cell (b : Buf) (j : Nat) :
    (i.setLength v s).cell b j = s.cell b j := by
  cases i <;> simp [Instr.setLength]

theorem State.finished_cell (b : Buf) (j : Nat) : (s.finished i n g v).cell b j =
    if b = i.destBuf ∧ j < n then some (i.destBuf.kept (g j)) else s.cell b j := by
  rw [State.finished, State.complete_cell, Instr.setLength_cell, State.cell_setBlock]

theorem State.finished_succeeded : Succeeded s (s.finished i n g v) := by
  cases i <;> simp [Succeeded, State.finished, Instr.setLength]

theorem State.finished_fixedKept : FixedKept s (s.finished i n g v) := by
  cases i <;> simp [FixedKept, State.finished, Instr.setLength]

theorem State.finished_keptOutside : KeptOutside s (s.finished i n g v) i.destBuf n :=
  fun b j hout => (s.finished_cell i n g v b j).trans (if_neg hout)

end Finished

/-- A command that ends without an error has passed its checks and completed the written state. -/
theorem conclude_of_no_err {s w t : State} {cs : List (Option Raise)}
    (h : conclude s cs w = .next t) (herr : t.status.err = false) :
    (∀ c ∈ cs, c = none) ∧ t = w.complete 0#4 0x00000000#32 := by
  obtain ⟨r, -, rfl⟩ | ⟨hok, rfl⟩ := conclude_cases h
  · rw [State.raise, State.complete_status, Status.completed_code] at herr
    cases herr
  · exact ⟨firstError_eq_none_iff.1 hok, rfl⟩

/-! ## `LOCK` -/

/-- The state in which a `LOCK` ends whose checks pass (R103). -/
def State.locked (s : State) : State :=
  s.finished .lock s.msgLen.toNat (fun i => s.operand .msg i ^^^ s.keyByte i) s.msgLen

theorem exec_lock_eq_locked {s : State} (hk : keyError s = none)
    (hn : s.msgLen.toNat ≤ s.params.bufBytes)
    (hr : rangeError s s.msgLen.toNat s.keyLen.toNat = none) :
    exec .lock s = .next s.locked :=
  conclude_of_ok (by
    simp only [hk, (limitError_eq_none_iff _ _).2 hn, hr, firstError_none, firstError_nil])

theorem exec_lock_of_no_err {s t : State} (h : exec .lock s = .next t)
    (herr : t.status.err = false) :
    keyError s = none ∧ s.msgLen.toNat ≤ s.params.bufBytes ∧ t = s.locked := by
  obtain ⟨hcs, ht⟩ := conclude_of_no_err h herr
  simp only [List.forall_mem_cons, limitError_eq_none_iff] at hcs
  obtain ⟨hk, hn, -⟩ := hcs
  exact ⟨hk, hn, ht⟩

theorem State.locked_cell_data (s : State) {i : Nat} (hi : i < s.msgLen.toNat) :
    s.locked.cell .data i = some (s.operand .msg i ^^^ s.keyByte i) :=
  (s.finished_cell .lock _ _ _ .data i).trans (if_pos ⟨rfl, hi⟩)

theorem State.locked_cell_key (s : State) (j : Nat) : s.locked.cell .key j = s.cell .key j :=
  s.finished_keptOutside .lock _ _ _ .key j (by simp [Instr.destBuf])

/-- Settles O13: the checks pass, and the state in which `LOCK` then ends is as the statement says. -/
theorem lockEncryptsTheMessage : Obligations.LockEncryptsTheMessage := by
  intro s hpos hmax hn hmsg hkey
  have hok := exec_lock_eq_locked ((keyError_eq_none_iff s).2 ⟨hpos, hmax⟩) hn
    ((rangeError_eq_none_iff s _ _).2 ⟨hmsg, hkey⟩)
  exact ⟨s.locked, hok, fun _ hi => s.locked_cell_data hi, rfl, rfl, rfl,
    s.finished_succeeded .lock _ _ _, s.finished_fixedKept .lock _ _ _,
    s.finished_keptOutside .lock _ _ _⟩

/-! ## `UNLOCK` -/

/-- The state in which an `UNLOCK` ends whose checks pass (R105). -/
def State.unlocked (s : State) : State :=
  s.finished .unlock s.dataLen.toNat (fun i => s.operand .data i ^^^ s.keyByte i) s.dataLen

theorem exec_unlock_eq_unlocked {s : State} (hk : keyError s = none)
    (hn : s.dataLen.toNat ≤ s.params.bufBytes) : exec .unlock s = .next s.unlocked :=
  conclude_of_ok (by simp only [hk, (limitError_eq_none_iff _ _).2 hn, firstError_none,
    firstError_nil])

theorem exec_unlock_of_no_err {s t : State} (h : exec .unlock s = .next t)
    (herr : t.status.err = false) :
    keyError s = none ∧ s.dataLen.toNat ≤ s.params.bufBytes ∧ t = s.unlocked := by
  obtain ⟨hcs, ht⟩ := conclude_of_no_err h herr
  simp only [List.forall_mem_cons, limitError_eq_none_iff] at hcs
  obtain ⟨hk, hn, -⟩ := hcs
  exact ⟨hk, hn, ht⟩

theorem State.unlocked_cell_msg (s : State) {i : Nat} (hi : i < s.dataLen.toNat) :
    s.unlocked.cell .msg i = some (s.operand .data i ^^^ s.keyByte i) :=
  (s.finished_cell .unlock _ _ _ .msg i).trans (if_pos ⟨rfl, hi⟩)

theorem State.unlocked_cell_key (s : State) (j : Nat) : s.unlocked.cell .key j = s.cell .key j :=
  s.finished_keptOutside .unlock _ _ _ .key j (by simp [Instr.destBuf])

/-- Settles O14: there is no check of the bytes, so a valid key and length are enough. -/
theorem unlockDecryptsTheData : Obligations.UnlockDecryptsTheData := by
  intro s hpos hmax hn
  have hok := exec_unlock_eq_unlocked ((keyError_eq_none_iff s).2 ⟨hpos, hmax⟩) hn
  exact ⟨s.unlocked, hok, fun _ hi => s.unlocked_cell_msg hi, rfl, rfl, rfl,
    s.finished_succeeded .unlock _ _ _, s.finished_fixedKept .unlock _ _ _,
    s.finished_keptOutside .unlock _ _ _⟩

/-! ## The two round trips -/

/-- A written key that is kept gives the same key byte at every position. -/
theorem State.keyByte_of_kept {s t : State} (hcell : ∀ j, t.cell .key j = s.cell .key j)
    (hlen : t.keyLen = s.keyLen) (hw : s.Written .key s.keyLen.toNat)
    (hk : keyError s = none) (i : Nat) : t.keyByte i = s.keyByte i := by
  obtain ⟨hpos, -⟩ := (keyError_eq_none_iff s).1 hk
  rw [State.keyByte, State.keyByte, hlen]
  exact State.operand_congr (hcell _) (.inr (hw _ (Nat.mod_lt _ hpos)))

theorem State.locked_keyByte {s : State} (hw : s.Written .key s.keyLen.toNat)
    (hk : keyError s = none) (i : Nat) : s.locked.keyByte i = s.keyByte i :=
  State.keyByte_of_kept s.locked_cell_key rfl hw hk i

theorem State.unlocked_keyByte {s : State} (hw : s.Written .key s.keyLen.toNat)
    (hk : keyError s = none) (i : Nat) : s.unlocked.keyByte i = s.keyByte i :=
  State.keyByte_of_kept s.unlocked_cell_key rfl hw hk i

/-- The cipher undoes itself: `(m XOR c) XOR c = m` (R107). -/
theorem byte_xor_xor_cancel (m c : Byte) : m ^^^ c ^^^ c = m := by
  rw [BitVec.xor_assoc, BitVec.xor_self, BitVec.xor_zero]

/-- Settles O27: `LOCK` keeps the key and the two limits, so `UNLOCK` passes its checks, and undoes the
cipher byte by byte. -/
theorem unlockAfterLockReturnsTheMessage : Obligations.UnlockAfterLockReturnsTheMessage := by
  intro s t hkey hmsg h herr
  obtain ⟨hk, hn, rfl⟩ := exec_lock_of_no_err h herr
  refine ⟨s.locked.unlocked, exec_unlock_eq_unlocked hk hn,
    s.locked.finished_succeeded .unlock _ _ _, rfl, fun i hi => ?_⟩
  rw [State.unlocked_cell_msg s.locked hi, State.operand_of_cell (s.locked_cell_data hi),
    State.locked_keyByte hkey hk, byte_xor_xor_cancel, State.cell_of_written hmsg hi]

/-- The range check of a `LOCK` after `UNLOCK` is one of the output bytes and the key as they stand in
the buffers. -/
theorem rangeError_unlocked_eq_none_iff {s : State} (hkey : s.Written .key s.keyLen.toNat) :
    rangeError s.unlocked s.dataLen.toNat s.keyLen.toNat = none ↔
      (∀ i < s.dataLen.toNat, s.unlocked.cell .msg i ≠ some 0xFF#8) ∧
        ∀ j < s.keyLen.toNat, s.cell .key j ≠ some 0xFF#8 := by
  have hm : s.unlocked.Written .msg s.dataLen.toNat := fun i hi => by
    rw [s.unlocked_cell_msg hi, Option.isSome_some]
  have hk : s.unlocked.Written .key s.keyLen.toNat := fun j hj => by
    rw [s.unlocked_cell_key, hkey j hj]
  simp only [rangeError_eq_none_iff_cell hm hk, State.unlocked_cell_key]

/-- Settles O28: `UNLOCK` keeps the key and the two limits, so `LOCK` reaches its range check; where
that passes, the cipher undoes itself. -/
theorem lockAfterUnlockReturnsTheDataUnlessFF :
    Obligations.LockAfterUnlockReturnsTheDataUnlessFF := by
  intro s t hkey hdata h herr
  obtain ⟨hk, hn, rfl⟩ := exec_unlock_of_no_err h herr
  have hrange := rangeError_unlocked_eq_none_iff hkey
  refine ⟨fun hsupported => ?_, fun hFF => ?_⟩
  · refine ⟨s.unlocked.locked, exec_lock_eq_locked hk hn (hrange.2 hsupported),
      s.unlocked.finished_succeeded .lock _ _ _, rfl, fun i hi => ?_⟩
    rw [State.locked_cell_data s.unlocked hi, State.operand_of_cell (s.unlocked_cell_msg hi),
      State.unlocked_keyByte hkey hk, byte_xor_xor_cancel, State.cell_of_written hdata hi]
  · have hfails : rangeError s.unlocked s.dataLen.toNat s.keyLen.toNat ≠ none := by
      rw [ne_eq, hrange]
      rintro ⟨hm, hj⟩
      obtain ⟨i, hi, hv⟩ | ⟨j, hj', hv⟩ := hFF
      · exact hm i hi hv
      · exact hj j hj' hv
    obtain ⟨⟨kind, info⟩, hr⟩ := Option.ne_none_iff_exists'.1 hfails
    obtain rfl : kind = .unsupportedCharacter := rangeError_kind hr
    obtain ⟨u, hu, hfailed⟩ := failedWith_of_raise
      (exec_of_rangeError (s := s.unlocked) hk (.inl ⟨rfl, hn⟩) hr)
    exact ⟨u, info, hu, hfailed⟩

end Sys2Proof.Machine
end

section
/-! PROOFS. The bit-plane commands: bits of bytes, the checks of the three commands, the states in which
they end, their round trip, and what extraction sees of a sample (41_bitplane.md R120 to R126;
42_framing.md R145). -/

namespace Sys2Proof.Machine

/-! ## Expansion and packing -/

theorem byte_and_one_eq_ite (v : Byte) : v &&& 0x01#8 = if v.getLsbD 0 then 1#8 else 0#8 := by
  decide +revert

theorem msbBit_eq_ite (v : Byte) (j : Nat) :
    msbBit v j = if v.getLsbD (7 - j) then 1#8 else 0#8 := by
  rw [msbBit, byte_and_one_eq_ite, BitVec.getLsbD_ushiftRight, Nat.add_zero]

/-- A bit cell keeps an expanded bit as it is (R38). -/
theorem kept_bits_msbBit (v : Byte) (j : Nat) : Buf.bits.kept (msbBit v j) = msbBit v j := by
  rw [Buf.kept, msbBit, BitVec.and_assoc, BitVec.and_self]

theorem pack_msbBit (v : Byte) : pack (msbBit v) = v :=
  byte_ext_msb fun j hj => by rw [pack_getLsbD _ hj, msbBit_getLsbD_zero]

/-- Packing looks at bit 0 of its eight arguments only. -/
theorem pack_congr_low {f g : Nat → Byte} (h : ∀ j < 8, (f j).getLsbD 0 = (g j).getLsbD 0) :
    pack f = pack g :=
  byte_ext_msb fun j hj => by rw [pack_getLsbD f hj, pack_getLsbD g hj, h j hj]

/-- The value of a packed byte in base 2 (R120). -/
theorem pack_toNat (b : Nat → Bool) : (pack (fun j => if b j then 1#8 else 0#8)).toNat =
    (b 0).toNat * 2 ^ 7 + (b 1).toNat * 2 ^ 6 + (b 2).toNat * 2 ^ 5 + (b 3).toNat * 2 ^ 4 +
    (b 4).toNat * 2 ^ 3 + (b 5).toNat * 2 ^ 2 + (b 6).toNat * 2 ^ 1 + (b 7).toNat * 2 ^ 0 := by
  simp only [pack]
  generalize b 0 = b0, b 1 = b1, b 2 = b2, b 3 = b3, b 4 = b4, b 5 = b5, b 6 = b6, b 7 = b7
  decide +revert

/-- Settles O36: packing undoes expansion bit by bit. -/
theorem packUndoesExpansion : Obligations.PackUndoesExpansion :=
  ⟨pack_msbBit, fun v j _ => msbBit_eq_ite v j, pack_toNat⟩

/-- Bit `8i + j` of the stream is bit `j` of byte `i`, most significant first (R63). -/
theorem streamBit_mul_add (v : Nat → Byte) (i : Nat) {j : Nat} (hj : j < 8) :
    streamBit v (8 * i + j) = msbBit (v i) j := by
  rw [streamBit, Nat.mul_add_div (by decide), Nat.div_eq_of_lt hj, Nat.add_zero, Nat.mul_add_mod,
    Nat.mod_eq_of_lt hj]

/-! ## The checks -/

/-- The checks of `EMBED` and `EXTRACT`, in order: the command's own limit, `SAMPLE_MAX`, and room in
the samples for the bits needed (R122, R123). -/
def bitPlaneChecks (s : State) (v bound needed : Nat) : List (Option Raise) :=
  [limitError v bound, sampleLimitError s, capacityError s needed]

section Checks

variable {s : State} {v bound needed : Nat}

theorem firstError_bitPlaneChecks_of_limit (h : bound < v) :
    firstError (bitPlaneChecks s v bound needed) =
      some ⟨.limitExceeded, BitVec.ofNat 32 v⟩ := by
  rw [bitPlaneChecks, limitError_of_lt h, firstError_some]

theorem firstError_bitPlaneChecks_of_sampleLimit (h : v ≤ bound)
    (hS : s.params.sampleMax < s.sampleCount.toNat) :
    firstError (bitPlaneChecks s v bound needed) = some ⟨.limitExceeded, s.sampleCount⟩ := by
  rw [bitPlaneChecks, (limitError_eq_none_iff v bound).2 h, firstError_none,
    sampleLimitError_of_lt hS, firstError_some]

theorem firstError_bitPlaneChecks_of_capacity (h : v ≤ bound)
    (hS : s.sampleCount.toNat ≤ s.params.sampleMax) (hc : s.sampleCount.toNat < needed) :
    firstError (bitPlaneChecks s v bound needed) = some ⟨.capacityExceeded, s.capacity⟩ := by
  rw [bitPlaneChecks, (limitError_eq_none_iff v bound).2 h, firstError_none,
    (sampleLimitError_eq_none_iff s).2 hS, firstError_none, capacityError_of_lt hc,
    firstError_some]

theorem firstError_bitPlaneChecks_eq_none (h : v ≤ bound)
    (hS : s.sampleCount.toNat ≤ s.params.sampleMax) (hc : needed ≤ s.sampleCount.toNat) :
    firstError (bitPlaneChecks s v bound needed) = none := by
  simp only [bitPlaneChecks, firstError_eq_none_iff, List.forall_mem_cons, limitError_eq_none_iff,
    sampleLimitError_eq_none_iff, capacityError_eq_none_iff]
  exact ⟨h, hS, hc, nofun⟩

end Checks

theorem exec_embed_of_error {s : State} {r : Raise}
    (h : firstError (bitPlaneChecks s s.bitsLen.toNat (8 * s.params.bufBytes) s.bitsLen.toNat) =
      some r) : exec .embed s = .next (s.raise r) :=
  conclude_of_error h

theorem exec_extract_of_error {s : State} {c : Nat} {r : Raise}
    (h : firstError (bitPlaneChecks s c s.params.bufBytes (8 * c)) = some r) :
    exec (.extract c) s = .next (s.raise r) :=
  conclude_of_error h

theorem exec_b2b_of_limit {s : State} (h : s.params.bufBytes < s.dataLen.toNat) :
    exec .b2b s = .next (s.raise ⟨.limitExceeded, BitVec.ofNat 32 s.dataLen.toNat⟩) :=
  conclude_of_error (by rw [limitError_of_lt h, firstError_some])

/-- `DECODE` checks `SAMPLE_MAX` first (R145). -/
theorem exec_decode_of_sampleLimit {s : State} (h : s.params.sampleMax < s.sampleCount.toNat) :
    exec .decode s = .next (s.raise ⟨.limitExceeded, s.sampleCount⟩) :=
  conclude_of_error (by rw [sampleLimitError_of_lt h, firstError_some])

/-- Settles O22: each command checks its own limit first, `SAMPLE_MAX` next. -/
theorem bitPlaneLimitsAreReported : Obligations.BitPlaneLimitsAreReported := by
  intro s
  refine ⟨fun hn => ?_, fun hm => ?_, fun c hc => ?_, fun hS => ⟨fun hm => ?_, fun c hc => ?_, ?_⟩⟩
  · exact failedWith_of_raise (exec_b2b_of_limit hn)
  · exact failedWith_of_raise (exec_embed_of_error (firstError_bitPlaneChecks_of_limit hm))
  · exact failedWith_of_raise (exec_extract_of_error (firstError_bitPlaneChecks_of_limit hc))
  · exact failedWith_of_raise
      (exec_embed_of_error (firstError_bitPlaneChecks_of_sampleLimit hm hS))
  · exact failedWith_of_raise
      (exec_extract_of_error (firstError_bitPlaneChecks_of_sampleLimit hc hS))
  · exact failedWith_of_raise (exec_decode_of_sampleLimit hS)

/-! ## `B2B` -/

/-- The state in which a `B2B` ends whose check passes (R121). -/
def State.expanded (s : State) : State :=
  s.finished .b2b (8 * s.dataLen.toNat) (streamBit (s.operand .data))
    (BitVec.ofNat 16 (8 * s.dataLen.toNat))

theorem exec_b2b_eq_expanded {s : State} (hn : s.dataLen.toNat ≤ s.params.bufBytes) :
    exec .b2b s = .next s.expanded :=
  conclude_of_ok (by rw [(limitError_eq_none_iff _ _).2 hn, firstError_none, firstError_nil])

theorem State.expanded_cell_bits (s : State) {p : Nat} (hp : p < 8 * s.dataLen.toNat) :
    s.expanded.cell .bits p = some (streamBit (s.operand .data) p) := by
  rw [State.expanded, State.finished_cell, if_pos ⟨rfl, hp⟩, streamBit]
  exact congrArg some (kept_bits_msbBit _ _)

/-- The new `BITS_LEN` fits its 16 bits, because `BUF_BYTES` is at most 4096 (R6). -/
theorem State.expanded_bitsLen {s : State} (hp : s.params.Legal)
    (hn : s.dataLen.toNat ≤ s.params.bufBytes) :
    s.expanded.bitsLen.toNat = 8 * s.dataLen.toNat := by
  obtain ⟨⟨-, hB⟩, -, -⟩ := hp
  exact Nat.mod_eq_of_lt (by omega)

/-- Settles O15: cell `8i + j` holds bit `j` of byte `i` of the stream. -/
theorem b2bExpandsBytesMsbFirst : Obligations.B2bExpandsBytesMsbFirst := by
  intro s hp hn
  refine ⟨s.expanded, exec_b2b_eq_expanded hn, fun i hi j hj => ?_, State.expanded_bitsLen hp hn,
    rfl, rfl, s.finished_succeeded .b2b _ _ _, s.finished_fixedKept .b2b _ _ _,
    s.finished_keptOutside .b2b _ _ _⟩
  rw [s.expanded_cell_bits (by omega), streamBit_mul_add _ _ hj, msbBit_eq_ite]

/-! ## `EMBED` -/

/-- Sample `p` of `PIX_DST` after `EMBED` (R122). -/
def State.embeddedSample (s : State) (p : Nat) : Byte :=
  if p < s.bitsLen.toNat then replaceLowBit (s.operand .pixSrc p) (s.operand .bits p)
  else s.operand .pixSrc p

/-- The state in which an `EMBED` ends whose checks pass (R122). -/
def State.embedded (s : State) : State :=
  s.finished .embed s.sampleCount.toNat s.embeddedSample 0#16

theorem exec_embed_eq_embedded {s : State} (hm : s.bitsLen.toNat ≤ 8 * s.params.bufBytes)
    (hS : s.sampleCount.toNat ≤ s.params.sampleMax) (hc : s.bitsLen.toNat ≤ s.sampleCount.toNat) :
    exec .embed s = .next s.embedded :=
  conclude_of_ok (firstError_bitPlaneChecks_eq_none hm hS hc)

theorem State.embedded_cell_pixDst (s : State) {p : Nat} (hp : p < s.sampleCount.toNat) :
    s.embedded.cell .pixDst p = some (s.embeddedSample p) :=
  (s.finished_cell .embed _ _ _ .pixDst p).trans (if_pos ⟨rfl, hp⟩)

theorem State.embeddedSample_getLsbD_zero (s : State) (p : Nat) :
    (s.embeddedSample p).getLsbD 0 =
      if p < s.bitsLen.toNat then (s.operand .bits p).getLsbD 0
      else (s.operand .pixSrc p).getLsbD 0 := by
  unfold State.embeddedSample
  split
  · exact replaceLowBit_getLsbD_zero _ _
  · rfl

/-- Bits 7 to 1 of a sample are kept, because a bit cell is 0 or 1 (R124). -/
theorem State.embeddedSample_getLsbD_succ (s : State) (p : Nat) {k : Nat} (hk : 1 ≤ k) :
    (s.embeddedSample p).getLsbD k = (s.operand .pixSrc p).getLsbD k := by
  unfold State.embeddedSample
  split
  · exact replaceLowBit_getLsbD_succ _ hk (s.operand_bits_getLsbD_succ p hk)
  · rfl

/-- Settles O16: the checks pass, and a sample of the state in which `EMBED` ends differs at most in
bit 0. -/
theorem embedReplacesOnlyLowBits : Obligations.EmbedReplacesOnlyLowBits := by
  intro s hm hS hc
  exact ⟨s.embedded, exec_embed_eq_embedded hm hS hc,
    fun p hp => ⟨s.embeddedSample p, s.embedded_cell_pixDst hp,
      fun _ hk => s.embeddedSample_getLsbD_succ p hk, s.embeddedSample_getLsbD_zero p⟩,
    rfl, rfl, rfl, s.finished_succeeded .embed _ _ _, s.finished_fixedKept .embed _ _ _,
    s.finished_keptOutside .embed _ _ _⟩

/-! ## `EXTRACT` -/

/-- The state in which an `EXTRACT c` ends whose checks pass (R123). -/
def State.extracted (s : State) (c : Nat) : State :=
  s.finished (.extract c) c s.sampleByte (BitVec.ofNat 16 c)

theorem exec_extract_eq_extracted {s : State} {c : Nat} (hB : c ≤ s.params.bufBytes)
    (hS : s.sampleCount.toNat ≤ s.params.sampleMax) (hc : 8 * c ≤ s.sampleCount.toNat) :
    exec (.extract c) s = .next (s.extracted c) :=
  conclude_of_ok (firstError_bitPlaneChecks_eq_none hB hS hc)

theorem State.extracted_cell_data (s : State) {c i : Nat} (hi : i < c) :
    (s.extracted c).cell .data i = some (s.sampleByte i) :=
  (s.finished_cell (.extract c) _ _ _ .data i).trans (if_pos ⟨rfl, hi⟩)

/-- The new `DATA_LEN` fits its 16 bits, because `BUF_BYTES` is at most 4096 (R6). -/
theorem State.extracted_dataLen {s : State} (hp : s.params.Legal) {c : Nat}
    (hB : c ≤ s.params.bufBytes) : (s.extracted c).dataLen.toNat = c := by
  obtain ⟨⟨-, hmax⟩, -, -⟩ := hp
  exact Nat.mod_eq_of_lt (by omega)

/-- Settles O17: the checks pass, and byte `i` of the state in which `EXTRACT` ends is packed from the
low bits of its eight samples. -/
theorem extractPacksLowBitsMsbFirst : Obligations.ExtractPacksLowBitsMsbFirst := by
  intro s c hp hB hS hc
  exact ⟨s.extracted c, exec_extract_eq_extracted hB hS hc,
    fun i hi => ⟨s.sampleByte i, s.extracted_cell_data hi, fun _ hj => s.sampleByte_getLsbD i hj⟩,
    State.extracted_dataLen hp hB, rfl, rfl, s.finished_succeeded (.extract c) _ _ _,
    s.finished_fixedKept (.extract c) _ _ _, s.finished_keptOutside (.extract c) _ _ _⟩

/-- Settles O23: behind the two limits there is only the check of the capacity. -/
theorem capacityBoundaryIsExact : Obligations.CapacityBoundaryIsExact := by
  intro s hS
  refine ⟨fun hm => ⟨fun hfit => ?_, fun hover => ?_⟩, fun c hB => ⟨fun hfit => ?_, fun hover => ?_⟩⟩
  · exact ⟨_, exec_embed_eq_embedded hm hS hfit, s.finished_succeeded .embed _ _ _⟩
  · exact failedWith_of_raise
      (exec_embed_of_error (firstError_bitPlaneChecks_of_capacity hm hS hover))
  · exact ⟨_, exec_extract_eq_extracted hB hS hfit, s.finished_succeeded (.extract c) _ _ _⟩
  · exact failedWith_of_raise
      (exec_extract_of_error (firstError_bitPlaneChecks_of_capacity hB hS hover))

/-! ## The round trip -/

/-- After `B2B`, the low bit of an embedded sample is the bit of the stream (R121, R122). -/
theorem State.expanded_embeddedSample_getLsbD_zero {s : State} (hp : s.params.Legal)
    (hn : s.dataLen.toNat ≤ s.params.bufBytes) {p : Nat} (hlt : p < 8 * s.dataLen.toNat) :
    (s.expanded.embeddedSample p).getLsbD 0 = (streamBit (s.operand .data) p).getLsbD 0 := by
  rw [State.embeddedSample_getLsbD_zero, State.expanded_bitsLen hp hn, if_pos hlt,
    State.operand_of_cell (s.expanded_cell_bits hlt)]

/-- Eight samples that hold the low bits of a byte's stream spell the byte. -/
theorem State.sampleByte_of_streamBits {c : State} {v : Nat → Byte} {i : Nat}
    (h : ∀ j < 8, (c.operand .pixSrc (8 * i + j)).getLsbD 0 =
      (streamBit v (8 * i + j)).getLsbD 0) : c.sampleByte i = v i := by
  calc c.sampleByte i
      = pack (msbBit (v i)) := pack_congr_low fun j hj => by rw [h j hj, streamBit_mul_add v i hj]
    _ = v i := pack_msbBit _

/-- Settles O29: `B2B` and `EMBED` keep the parameters and `SAMPLE_COUNT`, so every check passes; the
samples carry the stream of the bytes in their low bits, and `EXTRACT` packs it again. -/
theorem embedExtractRoundTrip : Obligations.EmbedExtractRoundTrip := by
  intro s hp hn hfit hS hdata
  have hm := State.expanded_bitsLen hp hn
  refine ⟨s.expanded, exec_b2b_eq_expanded hn, s.finished_succeeded .b2b _ _ _,
    s.expanded.embedded, ?_, s.expanded.finished_succeeded .embed _ _ _,
    fun c hcp hcS hcopy => ?_⟩
  · exact exec_embed_eq_embedded (hm.trans_le (Nat.mul_le_mul_left 8 hn)) hS (hm.trans_le hfit)
  · have hparams : c.params = s.params := hcp
    have hcount : c.sampleCount = s.sampleCount := hcS
    have hsample : ∀ p < 8 * s.dataLen.toNat,
        c.operand .pixSrc p = s.expanded.embeddedSample p := by
      intro p hlt
      have hp' : p < s.sampleCount.toNat := lt_of_lt_of_le hlt hfit
      exact State.operand_of_cell ((hcopy p hp').trans (s.expanded.embedded_cell_pixDst hp'))
    refine ⟨c.extracted s.dataLen.toNat, ?_, c.finished_succeeded (.extract _) _ _ _, ?_,
      fun i hi => ?_⟩
    · exact exec_extract_eq_extracted (by rwa [hparams]) (by rwa [hparams, hcount])
        (by rwa [hcount])
    · exact BitVec.eq_of_toNat_eq (State.extracted_dataLen (hparams ▸ hp) (hparams ▸ hn))
    · have hbyte : c.sampleByte i = s.operand .data i :=
        State.sampleByte_of_streamBits fun j hj => by
          rw [hsample _ (by omega), State.expanded_embeddedSample_getLsbD_zero hp hn (by omega)]
      rw [c.extracted_cell_data hi, hbyte, State.cell_of_written hdata hi]

/-! ## What extraction sees of a sample -/

section Samples

variable {s t : State} {m : Memory 8}

/-- The samples after the change have the same low bits. -/
def SameLowBits (s : State) (m : Memory 8) : Prop :=
  ∀ p, (State.operand { s with pixSrc := m } .pixSrc p).getLsbD 0 =
    (s.operand .pixSrc p).getLsbD 0

theorem State.sampleByte_setPixSrc (h : SameLowBits s m) :
    State.sampleByte { s with pixSrc := m } = s.sampleByte :=
  funext fun _ => pack_congr_low fun _ _ => h _

theorem State.setBlock_setPixSrc (s : State) {b : Buf} (hb : b ≠ .pixSrc) (n : Nat)
    (g : Nat → Byte) :
    State.setBlock { s with pixSrc := m } b n g = { s.setBlock b n g with pixSrc := m } := by
  cases b with
  | pixSrc => contradiction
  | key | msg | data | bits | pixDst => rfl

/-- Checks and a written state that do not see the samples end the command without them showing. -/
theorem conclude_setPixSrc {w w' : State} {cs cs' : List (Option Raise)}
    (h : conclude s cs w = .next t) (hc : cs' = cs) (hw : w' = { w with pixSrc := m }) :
    conclude { s with pixSrc := m } cs' w' = .next { t with pixSrc := m } :=
  conclude_map (fun u => { u with pixSrc := m }) h (congrArg firstError hc) (fun _ => rfl)
    fun _ => by rw [hw]; rfl

theorem execExtract_setPixSrc (hm : SameLowBits s m) {c : Nat} (h : execExtract c s = .next t) :
    execExtract c { s with pixSrc := m } = .next { t with pixSrc := m } := by
  refine conclude_setPixSrc h rfl ?_
  rw [State.sampleByte_setPixSrc hm, State.setBlock_setPixSrc s (by decide)]
  rfl

/-- `DECODE`: the length byte and the cipher bytes are packed bytes, and the key is no sample. -/
theorem execDecode_setPixSrc (hm : SameLowBits s m) (h : execDecode s = .next t) :
    execDecode { s with pixSrc := m } = .next { t with pixSrc := m } := by
  refine conclude_setPixSrc h ?_ ?_
  · rw [State.sampleByte_setPixSrc hm]
    rfl
  · rw [State.sampleByte_setPixSrc hm, State.setBlock_setPixSrc s (by decide)]
    rfl

end Samples

/-- Settles O35: both commands read the samples through `State.sampleByte` only. -/
theorem extractionSeesOnlyLowBits : Obligations.ExtractionSeesOnlyLowBits := by
  rintro i s t m (rfl | ⟨c, rfl⟩) hm h
  · exact execDecode_setPixSrc hm h
  · exact execExtract_setPixSrc hm h

end Sys2Proof.Machine
end

section
/-! PROOFS. The framing commands: the states in which `ENCODE` and `DECODE` end, their checks, what they
keep internal, and what `DECODE` returns of an encoded message (42_framing.md R140 to R150). -/

namespace Sys2Proof.Machine

/-! ## What the framing commands keep internal -/

/-- What the two commands read and write lies outside `DATA_MEM`, `BITS_MEM` and their lengths, so
other contents there pass through unseen (R149). -/
theorem exec_framing_setIntermediates {i : Instr} {s t : State} (hi : i = .encode ∨ i = .decode)
    (h : exec i s = .next t) (d : Memory 8) (b : Memory 1) (dl bl : Half) :
    exec i { s with dataMem := d, bitsMem := b, dataLen := dl, bitsLen := bl } =
      .next { t with dataMem := d, bitsMem := b, dataLen := dl, bitsLen := bl } := by
  obtain rfl | rfl := hi <;>
    exact conclude_map (fun u => { u with dataMem := d, bitsMem := b, dataLen := dl, bitsLen := bl })
      h rfl (fun _ => rfl) fun _ => rfl

/-- Settles O12: with the four as they are passed through, the command ends in the state it does end
in, so that one holds them unchanged. -/
theorem framingCommandsKeepIntermediatesInternal :
    Obligations.FramingCommandsKeepIntermediatesInternal := by
  intro i s t hi h
  have hpass := exec_framing_setIntermediates hi h
  have ht : t = { t with
      dataMem := s.dataMem, bitsMem := s.bitsMem, dataLen := s.dataLen, bitsLen := s.bitsLen } :=
    Host.Outcome.next.inj (h.symm.trans (hpass s.dataMem s.bitsMem s.dataLen s.bitsLen))
  exact ⟨(congrArg State.dataMem ht :), (congrArg State.bitsMem ht :), (congrArg State.dataLen ht :),
    (congrArg State.bitsLen ht :), hpass⟩

/-! ## `ENCODE` -/

/-- Sample `p` of `PIX_DST` after `ENCODE` (R141). -/
def State.framedSample (s : State) (p : Nat) : Byte :=
  if p < 8 * (s.msgLen.toNat + 1) then
    replaceLowBit (s.operand .pixSrc p) (streamBit (s.framedByte s.msgLen.toNat) p)
  else s.operand .pixSrc p

/-- The state in which an `ENCODE` ends whose checks pass (R141). -/
def State.encoded (s : State) : State :=
  s.finished .encode s.sampleCount.toNat s.framedSample 0#16

/-- The last checks of `ENCODE`: the sample limit, the advisory figure, the room for the frame (R141,
R142). -/
def roomChecks (s : State) : List (Option Raise) :=
  [sampleLimitError s, advisoryError s s.msgLen.toNat, capacityError s (8 * (s.msgLen.toNat + 1))]

/-- Room for the frame makes room for the advisory figure: `n + 1 ≤ S / 8` gives `n ≤ S / 8`. -/
theorem firstError_roomChecks_eq_none_iff (s : State) :
    firstError (roomChecks s) = none ↔ s.sampleCount.toNat ≤ s.params.sampleMax ∧
      8 * (s.msgLen.toNat + 1) ≤ s.sampleCount.toNat := by
  simp only [roomChecks, firstError_eq_none_iff, List.forall_mem_cons, sampleLimitError_eq_none_iff,
    advisoryError_eq_none_iff, capacityError_eq_none_iff]
  constructor
  · rintro ⟨hS, -, hfit, -⟩
    exact ⟨hS, hfit⟩
  · rintro ⟨hS, hfit⟩
    exact ⟨hS, by omega, hfit, nofun⟩

/-- The advisory check raises nothing but what the check of the room raises (R142). -/
theorem advisoryError_eq_none_or (s : State) (n : Nat) :
    advisoryError s n = none ∨ advisoryError s n = some ⟨.capacityExceeded, s.capacity⟩ := by
  unfold advisoryError
  split
  · exact .inr rfl
  · exact .inl rfl

theorem firstError_roomChecks_of_capacity {s : State}
    (hS : s.sampleCount.toNat ≤ s.params.sampleMax)
    (hc : s.sampleCount.toNat < 8 * (s.msgLen.toNat + 1)) :
    firstError (roomChecks s) = some ⟨.capacityExceeded, s.capacity⟩ := by
  rw [roomChecks, (sampleLimitError_eq_none_iff s).2 hS, firstError_none, capacityError_of_lt hc]
  obtain h | h := advisoryError_eq_none_or s s.msgLen.toNat <;> rw [h]
  · rw [firstError_none, firstError_some]
  · rw [firstError_some]

/-- The conditions under which `ENCODE` gets past the checks of its key, its length and the range of its
bytes (R141). -/
structure State.Encodable (s : State) : Prop where
  key : keyError s = none
  length : s.msgLen.toNat ≤ 255
  range : rangeError s s.msgLen.toNat s.keyLen.toNat = none

theorem State.Encodable.of_bytes {s : State} (hpos : 1 ≤ s.keyLen.toNat)
    (hmax : s.keyLen.toNat ≤ s.params.keyMax) (hn : s.msgLen.toNat ≤ 255)
    (hmsg : ∀ i < s.msgLen.toNat, s.operand .msg i ≠ 0xFF#8)
    (hkey : ∀ j < s.keyLen.toNat, s.operand .key j ≠ 0xFF#8) : s.Encodable :=
  ⟨(keyError_eq_none_iff s).2 ⟨hpos, hmax⟩, hn, (rangeError_eq_none_iff s _ _).2 ⟨hmsg, hkey⟩⟩

/-- Such an `ENCODE` has only its last checks to pass. -/
theorem State.Encodable.firstError_encode {s : State} (h : s.Encodable) :
    firstError (keyError s :: messageLengthError s.msgLen.toNat ::
      rangeError s s.msgLen.toNat s.keyLen.toNat :: roomChecks s) = firstError (roomChecks s) := by
  simp only [h.key, (messageLengthError_eq_none_iff _).2 h.length, h.range, firstError_none]

theorem State.Encodable.exec_of_error {s : State} (h : s.Encodable) {r : Raise}
    (hr : firstError (roomChecks s) = some r) : exec .encode s = .next (s.raise r) :=
  conclude_of_error (h.firstError_encode.trans hr)

theorem State.Encodable.exec_eq_encoded {s : State} (h : s.Encodable)
    (hS : s.sampleCount.toNat ≤ s.params.sampleMax)
    (hfit : 8 * (s.msgLen.toNat + 1) ≤ s.sampleCount.toNat) :
    exec .encode s = .next s.encoded :=
  conclude_of_ok (h.firstError_encode.trans ((firstError_roomChecks_eq_none_iff s).2 ⟨hS, hfit⟩))

/-- An `ENCODE` without an error had a valid key, a length of at most 255, and room for the frame. -/
theorem exec_encode_of_no_err {s t : State} (h : exec .encode s = .next t)
    (herr : t.status.err = false) :
    keyError s = none ∧ s.msgLen.toNat ≤ 255 ∧ s.sampleCount.toNat ≤ s.params.sampleMax ∧
      8 * (s.msgLen.toNat + 1) ≤ s.sampleCount.toNat ∧ t = s.encoded := by
  obtain ⟨hcs, ht⟩ := conclude_of_no_err h herr
  simp only [List.forall_mem_cons, messageLengthError_eq_none_iff, sampleLimitError_eq_none_iff,
    capacityError_eq_none_iff] at hcs
  obtain ⟨hk, hn, -, hS, -, hfit, -⟩ := hcs
  exact ⟨hk, hn, hS, hfit, ht⟩

theorem State.encoded_cell_pixDst (s : State) {p : Nat} (hp : p < s.sampleCount.toNat) :
    s.encoded.cell .pixDst p = some (s.framedSample p) :=
  (s.finished_cell .encode _ _ _ .pixDst p).trans (if_pos ⟨rfl, hp⟩)

/-- Bits 7 to 1 of a sample are kept, because a bit of the stream is 0 or 1. -/
theorem State.framedSample_getLsbD_succ (s : State) (p : Nat) {k : Nat} (hk : 1 ≤ k) :
    (s.framedSample p).getLsbD k = (s.operand .pixSrc p).getLsbD k := by
  unfold State.framedSample
  split
  · exact replaceLowBit_getLsbD_succ _ hk (msbBit_getLsbD_succ _ _ _ hk)
  · rfl

/-- Inside the frame, bit 0 of a sample is the bit of the frame's stream. -/
theorem State.framedSample_getLsbD_zero {s : State} {p : Nat}
    (hp : p < 8 * (s.msgLen.toNat + 1)) : (s.framedSample p).getLsbD 0 =
      (streamBit (s.framedByte s.msgLen.toNat) p).getLsbD 0 := by
  rw [State.framedSample, if_pos hp, replaceLowBit_getLsbD_zero]

theorem State.framedSample_of_ge {s : State} {p : Nat} (hp : 8 * (s.msgLen.toNat + 1) ≤ p) :
    s.framedSample p = s.operand .pixSrc p := if_neg (Nat.not_lt.2 hp)

/-- Samples `8i` to `8i + 7` spell byte `i` of the frame, most significant bit first (R63, R140). -/
theorem State.framedSample_spells_framedByte {s : State} {i j : Nat} (hi : i ≤ s.msgLen.toNat)
    (hj : j < 8) : (s.framedSample (8 * i + j)).getLsbD 0 =
      (s.framedByte s.msgLen.toNat i).getLsbD (7 - j) := by
  rw [State.framedSample_getLsbD_zero (by omega), streamBit_mul_add _ _ hj, msbBit_getLsbD_zero]

/-- Settles O18: the checks pass, and the samples of the state in which `ENCODE` ends spell the length
byte, then the cipher bytes, and are copies behind the frame. -/
theorem encodeEmbedsTheFrame : Obligations.EncodeEmbedsTheFrame := by
  intro s hpos hmax hn hmsg hkey hS hfit
  have hok := (State.Encodable.of_bytes hpos hmax hn hmsg hkey).exec_eq_encoded hS hfit
  refine ⟨s.encoded, hok, fun p hp => ⟨s.framedSample p, s.encoded_cell_pixDst hp,
      fun _ hk => s.framedSample_getLsbD_succ p hk, fun hp8 => ?_, fun i hi j hj hpij => ?_,
      fun hge => by rw [State.framedSample_of_ge hge]⟩,
    rfl, rfl, rfl, s.finished_succeeded .encode _ _ _, s.finished_fixedKept .encode _ _ _,
    s.finished_keptOutside .encode _ _ _⟩
  · have hspell := State.framedSample_spells_framedByte (s := s) (Nat.zero_le _) hp8
    rwa [Nat.mul_zero, Nat.zero_add] at hspell
  · rw [hpij]
    exact State.framedSample_spells_framedByte hi hj

/-- Settles O24: behind the key, the length and the range there are only the last checks. -/
theorem encodeRejectsAFrameThatDoesNotFit : Obligations.EncodeRejectsAFrameThatDoesNotFit := by
  intro s hpos hmax hn hmsg hkey
  have henc := State.Encodable.of_bytes hpos hmax hn hmsg hkey
  refine ⟨fun hS => ?_, fun hS hc => ?_⟩
  · exact failedWith_of_raise (henc.exec_of_error
      (by rw [roomChecks, sampleLimitError_of_lt hS, firstError_some]))
  · exact failedWith_of_raise (henc.exec_of_error (firstError_roomChecks_of_capacity hS hc))

/-- Settles O26: a frame of `n + 1` bytes fits exactly when `n` is at most `(S >> 3) - 1`, and at least
8 samples are there. -/
theorem longestEncodableMessage : Obligations.LongestEncodableMessage := by
  intro s hpos hmax hmsg hkey hS
  have hcap : (s.sampleCount >>> 3).toNat = s.sampleCount.toNat / 8 := s.capacity_toNat
  rw [hcap]
  constructor
  · rintro ⟨t, h, hstatus, -⟩
    obtain ⟨-, hn, -, hfit, -⟩ := exec_encode_of_no_err h (congrArg Status.err hstatus)
    omega
  · rintro ⟨h8, hn⟩
    have henc := State.Encodable.of_bytes hpos hmax (by omega) hmsg hkey
    exact ⟨s.encoded, henc.exec_eq_encoded hS (by omega), s.finished_succeeded .encode _ _ _⟩

/-! ## `DECODE` -/

/-- The state in which a `DECODE` ends whose checks pass (R145). -/
def State.decoded (s : State) : State :=
  s.finished .decode (s.sampleByte 0).toNat (fun i => s.sampleByte (i + 1) ^^^ s.keyByte i)
    ((s.sampleByte 0).setWidth 16)

/-- The byte that the low bits of samples 0 to 7 spell is the length byte that `DECODE` reads (R144). -/
theorem State.sampleByte_zero_eq {s : State} {L : Byte}
    (h : ∀ j < 8, L.getLsbD (7 - j) = (s.operand .pixSrc j).getLsbD 0) : s.sampleByte 0 = L :=
  byte_ext_msb fun j hj => by
    rw [s.sampleByte_getLsbD 0 hj, h j hj, Nat.mul_zero, Nat.zero_add]

/-- Too few samples for the frame are reported whatever the key is, by the check for the length byte
or by the one for the frame (R145). -/
theorem exec_decode_of_capacity {s : State} (hS : s.sampleCount.toNat ≤ s.params.sampleMax)
    (hc : s.sampleCount.toNat < 8 * ((s.sampleByte 0).toNat + 1)) :
    exec .decode s = .next (s.raise ⟨.capacityExceeded, s.capacity⟩) := by
  have hlimit := (sampleLimitError_eq_none_iff s).2 hS
  by_cases h8 : s.sampleCount.toNat < 8
  · exact conclude_of_error (by
      rw [hlimit, firstError_none, capacityError_of_lt h8, firstError_some])
  · exact conclude_of_error (by
      rw [hlimit, firstError_none, (capacityError_eq_none_iff s 8).2 (by omega), firstError_none,
        capacityError_of_lt hc, firstError_some])

/-- Where the frame is there, only the check of the key is left. -/
theorem firstError_decode {s : State} (hS : s.sampleCount.toNat ≤ s.params.sampleMax)
    (hfit : 8 * ((s.sampleByte 0).toNat + 1) ≤ s.sampleCount.toNat) :
    firstError [sampleLimitError s, capacityError s 8,
      capacityError s (8 * ((s.sampleByte 0).toNat + 1)), keyError s] =
      firstError [keyError s] := by
  simp only [(sampleLimitError_eq_none_iff s).2 hS, (capacityError_eq_none_iff s _).2 hfit,
    (capacityError_eq_none_iff s 8).2 (by omega), firstError_none]

theorem exec_decode_of_keyError {s : State} (hS : s.sampleCount.toNat ≤ s.params.sampleMax)
    (hfit : 8 * ((s.sampleByte 0).toNat + 1) ≤ s.sampleCount.toNat) {r : Raise}
    (hk : keyError s = some r) : exec .decode s = .next (s.raise r) :=
  conclude_of_error ((firstError_decode hS hfit).trans (by rw [hk, firstError_some]))

theorem exec_decode_eq_decoded {s : State} (hS : s.sampleCount.toNat ≤ s.params.sampleMax)
    (hfit : 8 * ((s.sampleByte 0).toNat + 1) ≤ s.sampleCount.toNat) (hk : keyError s = none) :
    exec .decode s = .next s.decoded :=
  conclude_of_ok ((firstError_decode hS hfit).trans (by rw [hk, firstError_none, firstError_nil]))

theorem State.decoded_cell_msg (s : State) {i : Nat} (hi : i < (s.sampleByte 0).toNat) :
    s.decoded.cell .msg i = some (s.sampleByte (i + 1) ^^^ s.keyByte i) :=
  (s.finished_cell .decode _ _ _ .msg i).trans (if_pos ⟨rfl, hi⟩)

/-- The new `MSG_LEN` is the length byte, zero-extended. -/
theorem State.decoded_msgLen_toNat (s : State) :
    s.decoded.msgLen.toNat = (s.sampleByte 0).toNat :=
  BitVec.toNat_setWidth_of_le (by decide)

/-- Settles O19: the checks pass, and a byte of the state in which `DECODE` ends is the byte its eight
samples spell, unlocked. -/
theorem decodeUnlocksTheFrame : Obligations.DecodeUnlocksTheFrame := by
  intro s L hL hS hfit hpos hmax
  obtain rfl := State.sampleByte_zero_eq hL
  refine ⟨s.decoded, exec_decode_eq_decoded hS hfit ((keyError_eq_none_iff s).2 ⟨hpos, hmax⟩),
    fun i hi => ⟨_, s.decoded_cell_msg hi, fun j hj => ?_⟩, s.decoded_msgLen_toNat, rfl, rfl,
    s.finished_succeeded .decode _ _ _, s.finished_fixedKept .decode _ _ _,
    s.finished_keptOutside .decode _ _ _⟩
  rw [BitVec.getLsbD_xor, s.sampleByte_getLsbD _ hj, State.keyByte]

/-- Settles O25: the checks of the capacity stand before the one of the key. -/
theorem decodeChecksCapacityBeforeKey : Obligations.DecodeChecksCapacityBeforeKey := by
  intro s L hS hL
  obtain rfl := State.sampleByte_zero_eq hL
  refine ⟨fun hc => ?_, fun hfit => ⟨fun h0 => ?_, fun h0 hmax => ?_⟩⟩
  · exact failedWith_of_raise (exec_decode_of_capacity hS hc)
  · exact failedWith_of_raise (exec_decode_of_keyError hS hfit (keyError_of_zero h0))
  · exact failedWith_of_raise (exec_decode_of_keyError hS hfit (keyError_of_gt h0 hmax))

/-! ## `DECODE` of an encoded message -/

/-- `c` has the parameters and `SAMPLE_COUNT` of `s`, and `PIX_SRC` holds what an `ENCODE` from `s` left
in `PIX_DST`: the host's copy of R150. -/
structure State.HoldsFrameOf (c s : State) : Prop where
  params : c.params = s.params
  count : c.sampleCount = s.sampleCount
  samples : ∀ p < s.sampleCount.toNat, c.operand .pixSrc p = s.framedSample p

theorem State.HoldsFrameOf.of_copy {c s : State} (hp : c.params = s.encoded.params)
    (hS : c.sampleCount = s.encoded.sampleCount)
    (hcopy : ∀ p < s.sampleCount.toNat, c.cell .pixSrc p = s.encoded.cell .pixDst p) :
    c.HoldsFrameOf s :=
  ⟨hp, hS, fun p hlt => State.operand_of_cell ((hcopy p hlt).trans (s.encoded_cell_pixDst hlt))⟩

/-- The copied samples spell the frame. -/
theorem State.HoldsFrameOf.sampleByte_eq {c s : State} (h : c.HoldsFrameOf s)
    (hfit : 8 * (s.msgLen.toNat + 1) ≤ s.sampleCount.toNat) {i : Nat} (hi : i ≤ s.msgLen.toNat) :
    c.sampleByte i = s.framedByte s.msgLen.toNat i :=
  State.sampleByte_of_streamBits fun j hj => by
    rw [h.samples _ (by omega), State.framedSample_getLsbD_zero (by omega)]

/-- `DECODE` of the copy with any valid key succeeds with the encoded length and the doubly keyed bytes
(R146). -/
theorem State.HoldsFrameOf.exec_decode {c s : State} (h : c.HoldsFrameOf s)
    (hn : s.msgLen.toNat ≤ 255) (hS : s.sampleCount.toNat ≤ s.params.sampleMax)
    (hfit : 8 * (s.msgLen.toNat + 1) ≤ s.sampleCount.toNat) (hk : keyError c = none) :
    ∃ u, exec .decode c = .next u ∧ Succeeded c u ∧ u.msgLen = s.msgLen ∧
      ∀ i < s.msgLen.toNat,
        u.cell .msg i = some (s.operand .msg i ^^^ s.keyByte i ^^^ c.keyByte i) := by
  have hL : (c.sampleByte 0).toNat = s.msgLen.toNat := by
    rw [h.sampleByte_eq hfit (Nat.zero_le _)]
    exact Nat.mod_eq_of_lt (by omega)
  refine ⟨c.decoded, exec_decode_eq_decoded ?_ ?_ hk, c.finished_succeeded .decode _ _ _, ?_,
    fun i hi => ?_⟩
  · rwa [h.params, h.count]
  · rwa [hL, h.count]
  · exact BitVec.eq_of_toNat_eq (c.decoded_msgLen_toNat.trans hL)
  · rw [c.decoded_cell_msg (hL ▸ hi), h.sampleByte_eq hfit hi, State.framedByte]

/-- Settles O31: a successful `ENCODE` has left its frame in `PIX_DST`, and no check of `DECODE` looks at
the bytes of the key. -/
theorem decodeWithAWrongKeySucceedsWithGarbage :
    Obligations.DecodeWithAWrongKeySucceedsWithGarbage := by
  intro s t c _ _ h herr hp hcount hcopy hpos hmax
  obtain ⟨-, hn, hS, hfit, rfl⟩ := exec_encode_of_no_err h herr
  exact (State.HoldsFrameOf.of_copy hp hcount hcopy).exec_decode hn hS hfit
    ((keyError_eq_none_iff c).2 ⟨hpos, hmax⟩)

/-- Settles O30: the same key is valid and undoes itself byte by byte. -/
theorem decodeAfterEncodeReturnsTheMessage : Obligations.DecodeAfterEncodeReturnsTheMessage := by
  intro s t c hkey hmsg h herr hp hcount hlen hcopy hkeycopy
  obtain ⟨hk, hn, hS, hfit, rfl⟩ := exec_encode_of_no_err h herr
  have hframe := State.HoldsFrameOf.of_copy hp hcount hcopy
  have hkc : keyError c = none := by
    rwa [keyError_eq_none_iff, hlen, hframe.params, ← keyError_eq_none_iff]
  have hkeyByte : ∀ i, c.keyByte i = s.keyByte i := fun i => by
    have hlt : i % s.keyLen.toNat < s.keyLen.toNat :=
      Nat.mod_lt _ ((keyError_eq_none_iff s).1 hk).1
    rw [State.keyByte, State.keyByte, hlen]
    exact State.operand_congr (hkeycopy _ hlt) (.inr (hkey _ hlt))
  obtain ⟨u, hu, hsucc, hulen, hbytes⟩ := hframe.exec_decode hn hS hfit hkc
  refine ⟨⟨u, hu, hsucc, hulen, fun i hi => ?_⟩, fun p hlt k hk1 => ?_⟩
  · rw [hbytes i hi, hkeyByte, byte_xor_xor_cancel, State.cell_of_written hmsg hi]
  · rw [hframe.samples p hlt, s.framedSample_getLsbD_succ p hk1]

/-- The frame of the empty message is eight 0 bits (R147). -/
theorem State.framedSample_of_empty {s : State} (h : s.msgLen = 0#16) (p : Nat) :
    s.framedSample p =
      if p < 8 then s.operand .pixSrc p &&& 0xFE#8 else s.operand .pixSrc p := by
  have hbit : p < 8 → streamBit (s.framedByte 0) p = 0#8 := fun hp => by
    rw [streamBit, Nat.div_eq_of_lt hp, State.framedByte, msbBit, BitVec.zero_ushiftRight,
      BitVec.zero_and]
  have hn : s.msgLen.toNat = 0 := congrArg BitVec.toNat h
  rw [State.framedSample, hn]
  split
  · rw [hbit ‹_›, replaceLowBit, BitVec.or_zero]
  · rfl

/-- Settles O32: an empty message passes the range check, and the wrong-key decode of its frame has no
byte to get wrong. -/
theorem emptyMessageRoundTrip : Obligations.EmptyMessageRoundTrip := by
  intro s hempty hpos hmax hkey h8 hS
  have hn : s.msgLen.toNat = 0 := congrArg BitVec.toNat hempty
  have hfit : 8 * (s.msgLen.toNat + 1) ≤ s.sampleCount.toNat := by omega
  have henc : s.Encodable :=
    .of_bytes hpos hmax (by omega) (fun i hi => absurd hi (by omega)) hkey
  refine ⟨s.encoded, henc.exec_eq_encoded hS hfit, s.finished_succeeded .encode _ _ _,
    fun p hp => ?_, fun c hcp hcount hcopy hcpos hcmax => ?_⟩
  · rw [s.encoded_cell_pixDst hp, State.framedSample_of_empty hempty]
  · obtain ⟨u, hu, hsucc, hlen, -⟩ := (State.HoldsFrameOf.of_copy hcp hcount hcopy).exec_decode
      henc.length hS hfit ((keyError_eq_none_iff c).2 ⟨hcpos, hcmax⟩)
    exact ⟨u, hu, hsucc, hlen.trans hempty⟩

end Sys2Proof.Machine
end

section
/-! PROOFS. A command run twice: none reads what it writes (42_framing.md R148; 10_state.md R36). -/

namespace Sys2Proof.Machine

/-- A block written over itself: the second write drops the first one's entries and puts them back. -/
theorem Memory.writeBlock_writeBlock {w : Nat} (m : Memory w) (n : Nat) (f : Nat → BitVec w) :
    Memory.writeBlock (Memory.writeBlock m n f) n f = Memory.writeBlock m n f := by
  simp [Memory.writeBlock, List.filter_append, List.filter_map, Function.comp_def]

/-- `s` with the write set of `i` (R195), `STATUS`, `ERR_INFO` and the pending command as in `t`: all that
an execution of `i` can change but for the draws. -/
def State.overwritten (s : State) (i : Instr) (t : State) : State :=
  let u := { s with status := t.status, errInfo := t.errInfo, pending := t.pending }
  match i with
  | .lock => { u with dataMem := t.dataMem, dataLen := t.dataLen }
  | .unlock => { u with msgMem := t.msgMem, msgLen := t.msgLen }
  | .b2b => { u with bitsMem := t.bitsMem, bitsLen := t.bitsLen }
  | .embed => { u with pixDst := t.pixDst }
  | .extract _ => { u with dataMem := t.dataMem, dataLen := t.dataLen }
  | .encode => { u with pixDst := t.pixDst }
  | .decode => { u with msgMem := t.msgMem, msgLen := t.msgLen }

theorem State.overwritten_raise (s : State) (i : Instr) (r : Raise) :
    s.overwritten i (s.raise r) = { s.raise r with draws := s.draws } := by
  cases i <;> rfl

theorem State.overwritten_finished (s : State) (i : Instr) (n : Nat) (g : Nat → Byte) (v : Half) :
    s.overwritten i (s.finished i n g v) = { s.finished i n g v with draws := s.draws } := by
  cases i <;> rfl

/-- No command reads what it writes (R36): its checks and the block it would write are the same ones
whatever its write set holds. -/
theorem exec_overwritten (i : Instr) (s : State) : ∃ cs n g v,
    exec i s = conclude s cs (i.setLength v (s.setBlock i.destBuf n g)) ∧
    ∀ t, exec i (s.overwritten i t) = conclude (s.overwritten i t) cs
      (i.setLength v ((s.overwritten i t).setBlock i.destBuf n g)) := by
  cases i with
  | lock => exact ⟨_, _, _, _, rfl, fun _ => rfl⟩
  | unlock => exact ⟨_, _, _, _, rfl, fun _ => rfl⟩
  | b2b => exact ⟨_, _, _, _, rfl, fun _ => rfl⟩
  | embed => exact ⟨_, _, _, 0#16, rfl, fun _ => rfl⟩
  | extract c => exact ⟨_, _, _, _, rfl, fun _ => rfl⟩
  | encode => exact ⟨_, _, _, 0#16, rfl, fun _ => rfl⟩
  | decode => exact ⟨_, _, _, _, rfl, fun _ => rfl⟩

/-- Raised again with the same draws, an error leaves the same state: `STATUS` keeps `OVR` alone. -/
theorem State.raise_raise (s : State) (r : Raise) :
    State.raise { s.raise r with draws := s.draws } r = s.raise r := rfl

/-- Finished again with the same draws, a command leaves the same state: it writes the same block over
itself. -/
theorem State.finished_finished (s : State) (i : Instr) (n : Nat) (g : Nat → Byte) (v : Half) :
    State.finished { s.finished i n g v with draws := s.draws } i n g v = s.finished i n g v := by
  cases i <;> simp only [State.finished, Instr.setLength, Instr.destBuf, State.setBlock,
    State.setMsgLen, State.setDataLen, State.setBitsLen, State.complete, Status.completed_zero,
    Memory.writeBlock_writeBlock]

/-- A command run again with the same draws ends in the same state. -/
theorem exec_repeat_same_draws {i : Instr} {s t : State} (h : exec i s = .next t) :
    exec i { t with draws := s.draws } = .next t := by
  obtain ⟨cs, n, g, v, hs, hexec⟩ := exec_overwritten i s
  obtain ⟨r, hr, rfl⟩ | ⟨hok, ht⟩ := conclude_cases (hs.symm.trans h)
  · rw [← State.overwritten_raise s i r, hexec, conclude_of_error hr, State.overwritten_raise,
      State.raise_raise]
  · obtain rfl : t = s.finished i n g v := ht
    rw [← State.overwritten_finished, hexec, conclude_of_ok hok, State.overwritten_finished]
    exact congrArg _ (s.finished_finished i n g v)

/-- Settles O34: on written operands the first run could as well have had the draws of the second, and
run again with the same draws it ends in the same state. -/
theorem repeatedCommandRepeatsItsResult : Obligations.RepeatedCommandRepeatsItsResult := by
  intro i s t hw h
  exact exec_repeat_same_draws (writtenOperandsDetermineTheResult i s t t.draws hw h)

end Sys2Proof.Machine
end

section
/-! PROOFS. How every command completes, what can set `OVR`, and the idle core (60_exceptions.md R160,
R164, R178, R179). -/

namespace Sys2Proof.Machine

/-! ## Completion -/

theorem State.raise_fixedKept (s : State) (r : Raise) : FixedKept s (s.raise r) :=
  ⟨rfl, rfl, rfl, rfl, rfl, rfl, rfl, rfl⟩

theorem State.finished_draws (s : State) (i : Instr) (n : Nat) (g : Nat → Byte) (v : Half) :
    (s.finished i n g v).draws = s.draws + 1 := by
  cases i <;> simp [State.finished, Instr.setLength]

/-- Both ways for a command to end are a completion, after which `STATUS`, `ERR_INFO` and the pending
command agree whatever the state at acceptance was. -/
theorem exec_completes (i : Instr) (s : State) : ∃ t, exec i s = .next t ∧
    t.pending = none ∧ t.status.done = true ∧ t.StatusOk ∧ t.draws = s.draws + 1 ∧
    FixedKept s t := by
  obtain ⟨r, hr⟩ | ⟨n, g, v, hok, -⟩ := exec_cases i s
  · exact ⟨_, hr, rfl, rfl, s.raise_statusOk r, rfl, s.raise_fixedKept r⟩
  · exact ⟨s.finished i n g v, hok, rfl, rfl, State.complete_zero_statusOk _,
      s.finished_draws i n g v, s.finished_fixedKept i n g v⟩

/-- Settles O9: with nothing pending, the agreement says that the core is not busy and that `ERR` and
`ERR_INFO` are as the code says. -/
theorem everyCommandCompletes : Obligations.EveryCommandCompletes := by
  intro i s
  obtain ⟨t, ht, hp, hdone, ⟨hbusy, -, herr, hcode, -, hinfo, -⟩, hdraws, hkept⟩ :=
    exec_completes i s
  rw [hp] at hbusy
  exact ⟨t, ht, hp, hbusy, hdone, herr, hcode, hinfo, hdraws, hkept⟩

/-! ## `OVR` -/

theorem exec_fixedKept {i : Instr} {s t : State} (h : exec i s = .next t) : FixedKept s t := by
  obtain ⟨u, hu, -, -, -, -, hkept⟩ := exec_completes i s
  obtain rfl := Host.Outcome.next.inj (h.symm.trans hu)
  exact hkept

/-- The core's step keeps `OVR`, on an illegal word too (R164, R169). -/
theorem coreTurn_ovr {w : Word} {s t : State} (h : coreTurn w s = .next t) :
    t.status.ovr = s.status.ovr := by
  cases hw : decode w with
  | legal i =>
    obtain ⟨-, -, -, -, hovr, -⟩ := exec_fixedKept ((coreTurn_of_legal hw s).symm.trans h)
    exact hovr
  | illegal why =>
    obtain rfl := Host.Outcome.next.inj (h.symm.trans (coreTurn_of_illegal hw s))
    rfl

theorem Status.ovr_of_written {st : Status} {v : Word} (h : (st.written v).ovr = true) :
    st.ovr = true :=
  (Bool.and_eq_true_iff.1 h).1

/-- While idle, a register write can only clear `OVR` (R26, R85). -/
theorem State.ovr_of_writeReg {s : State} {r : Reg} {v : Word}
    (h : (s.writeReg r v).status.ovr = true) : s.status.ovr = true := by
  cases r with
  | status => exact Status.ovr_of_written h
  | cmd | id | errInfo | keyLen | msgLen | dataLen | bitsLen | sampleCount | capacity | paramBuf
  | paramKey | paramSamples => exact h

theorem State.ovr_of_idleWrite {s : State} {off : Word} {width : Width} {v : Word}
    (h : (s.idleWrite off width v).status.ovr = true) : s.status.ovr = true := by
  unfold State.idleWrite at h
  split at h
  · split at h
    · exact State.ovr_of_writeReg h
    · exact h
  · rwa [State.setLanes_status] at h
  · exact h

/-- A write that obeys the duty comes while nothing is pending or goes to `STATUS`; neither sets `OVR`
(R179, R194). -/
theorem State.ovr_of_obedient_busWrite {s : State} {off : Word} {width : Width} {v : Word}
    (hob : (HostStep.write off width v).obeys s = true)
    (h : (s.busWrite off width v).status.ovr = true) : s.status.ovr = true := by
  obtain hp | hoff := Bool.or_eq_true_iff.1 hob
  · rw [State.busWrite_of_idle (Option.isNone_iff_eq_none.1 hp)] at h
    exact State.ovr_of_idleWrite h
  · rw [beq_iff_eq.1 hoff, State.busWrite_status] at h
    exact Status.ovr_of_written h

/-- A step of a host whose next step obeys the duty does not set `OVR`: a read keeps it, reset clears
it. -/
theorem ovr_of_obedient_hostTurn {s t : State}
    (hob : ∀ a, s.host.head? = some a → a.obeys s = true) (h : hostTurn s = .next t)
    (hovr : t.status.ovr = true) : s.status.ovr = true := by
  obtain ⟨-, rfl⟩ | ⟨hs, v, rfl⟩ | ⟨off, width, v, rest, hhost, -, rfl⟩ | ⟨rest, -, rfl⟩ :=
    hostTurn_cases h
  · exact hovr
  · exact hovr
  · have hwrite := hob (.write off width v) (by rw [hhost, List.head?_cons])
    exact State.ovr_of_obedient_busWrite (s := { s with host := rest }) hwrite hovr
  · exact absurd hovr Bool.false_ne_true

/-- Settles O53: the core keeps `OVR`, and an obedient host does not set it. -/
theorem obedientHostCausesNoOverrun : Obligations.ObedientHostCausesNoOverrun := by
  intro s t hob hstep hovr
  obtain ⟨-, ht⟩ | ⟨w, -, hc⟩ | ⟨w, -, ht⟩ := step_cases hstep
  · exact ovr_of_obedient_hostTurn hob ht hovr
  · exact (coreTurn_ovr hc).symm.trans hovr
  · exact ovr_of_obedient_hostTurn (s := s.takeTurn) hob ht hovr

/-! ## The idle core -/

theorem hostTurn_of_nil {s : State} (h : s.host = []) : hostTurn s = .next s := by
  simp only [hostTurn, h]

/-- Settles O58: with nothing pending the step is the host's, and the host has none left. -/
theorem idleCoreKeepsAllState : Obligations.IdleCoreKeepsAllState :=
  fun _ hp hh => (step_of_idle hp).trans (hostTurn_of_nil hh)

end Sys2Proof.Machine
end

section
/-! PROOFS. The reset input, what a command can write, and the pending command as a hazard to the host
(70_reset_and_hazards.md R190 to R198; 10_state.md R44; 20_memory.md R69). -/

namespace Sys2Proof.Machine

/-! ## The reset input -/

theorem Status.reset_word : Status.reset.word = 0#32 := by decide

theorem State.resetInput_cell (s : State) (b : Buf) (i : Nat) : s.resetInput.cell b i = none := by
  cases b <;> rfl

theorem hostTurn_of_reset {s : State} {rest : List HostStep} (h : s.host = .reset :: rest) :
    hostTurn s = .next (State.resetInput { s with host := rest }) := by
  simp only [hostTurn, h]

/-- Settles O56: the step is the host's, and what reset leaves is the reset state with the parameters
and the queue kept. -/
theorem resetInputRestoresTheResetState : Obligations.ResetInputRestoresTheResetState := by
  intro s rest hhost hmoves
  have hmover : ∃ u, u.params = s.params ∧ (s.pending = none ∧ u = s ∨
      s.pending ≠ none ∧ s.turns.head? = some .host ∧ u = { s with turns := s.turns.tail }) := by
    by_cases hp : s.pending = none
    · exact ⟨s, rfl, .inl ⟨hp, rfl⟩⟩
    · exact ⟨s.takeTurn, rfl, .inr ⟨hp, hmoves.resolve_left hp, rfl⟩⟩
  obtain ⟨u, hparams, hu⟩ := hmover
  obtain ⟨hstep, huhost⟩ := step_eq_hostTurn (by simp [hhost]) hu
  exact ⟨_, hstep.trans (hostTurn_of_reset (huhost.trans hhost)), hparams, rfl,
    Status.reset_word, rfl, rfl, rfl, rfl, rfl, rfl, rfl, State.resetInput_cell _, rfl⟩

/-! ## The write set of a command -/

/-- The two ways for a command to have ended: an error raised from the state at acceptance, or its
block and its length written. -/
theorem exec_next_cases {i : Instr} {s t : State} (h : exec i s = .next t) :
    (∃ r, t = s.raise r) ∨ ∃ n g v, t = s.finished i n g v := by
  obtain ⟨r, hr⟩ | ⟨n, g, v, hok, -⟩ := exec_cases i s
  · exact .inl ⟨r, Host.Outcome.next.inj (h.symm.trans hr)⟩
  · exact .inr ⟨n, g, v, Host.Outcome.next.inj (h.symm.trans hok)⟩

theorem State.raise_cell (s : State) (r : Raise) (b : Buf) (j : Nat) :
    (s.raise r).cell b j = s.cell b j :=
  s.complete_cell _ _ b j

/-- A command writes no buffer but its destination. -/
theorem exec_cell_of_ne_destBuf {i : Instr} {s t : State} (h : exec i s = .next t) {b : Buf}
    (hb : b ≠ i.destBuf) (j : Nat) : t.cell b j = s.cell b j := by
  obtain ⟨r, rfl⟩ | ⟨n, g, v, rfl⟩ := exec_next_cases h
  · exact s.raise_cell r b j
  · exact s.finished_keptOutside i n g v b j fun hin => hb hin.1

/-- `t` has the length registers of `s` but for the one that command `i` writes, if it writes one. -/
structure LengthsKept (i : Instr) (s t : State) : Prop where
  msgLen : i.destReg ≠ some .msgLen → t.msgLen = s.msgLen
  dataLen : i.destReg ≠ some .dataLen → t.dataLen = s.dataLen
  bitsLen : i.destReg ≠ some .bitsLen → t.bitsLen = s.bitsLen

theorem State.finished_lengthsKept (s : State) (i : Instr) (n : Nat) (g : Nat → Byte) (v : Half) :
    LengthsKept i s (s.finished i n g v) := by
  constructor <;> cases i <;> simp [Instr.destReg, State.finished, Instr.setLength]

theorem exec_lengthsKept {i : Instr} {s t : State} (h : exec i s = .next t) :
    LengthsKept i s t := by
  obtain ⟨r, rfl⟩ | ⟨n, g, v, rfl⟩ := exec_next_cases h
  · exact ⟨fun _ => rfl, fun _ => rfl, fun _ => rfl⟩
  · exact s.finished_lengthsKept i n g v

/-- The commands that write each length register (R195). -/
theorem Instr.destReg_eq_msgLen_iff (i : Instr) :
    i.destReg = some .msgLen ↔ i = .unlock ∨ i = .decode := by
  cases i <;> simp [Instr.destReg]

theorem Instr.destReg_eq_dataLen_iff (i : Instr) :
    i.destReg = some .dataLen ↔ i = .lock ∨ ∃ c, i = .extract c := by
  cases i <;> simp [Instr.destReg]

theorem Instr.destReg_eq_bitsLen_iff (i : Instr) : i.destReg = some .bitsLen ↔ i = .b2b := by
  cases i <;> simp [Instr.destReg]

/-- Settles O11: the write set of each command is its destination buffer and its length register. -/
theorem commandsWriteOnlyTheirWriteSet : Obligations.CommandsWriteOnlyTheirWriteSet := by
  intro i s t h
  obtain ⟨hmsg, hdata, hbits⟩ := exec_lengthsKept h
  obtain ⟨-, -, hkey, hsamples, -⟩ := exec_fixedKept h
  refine ⟨fun b hb => exec_cell_of_ne_destBuf h ?_, fun hu hd => hmsg ?_, fun hl he => hdata ?_,
    fun hb => hbits (mt (Instr.destReg_eq_bitsLen_iff i).1 hb), hkey, hsamples⟩
  · cases i <;> exact hb
  · rw [Ne, Instr.destReg_eq_msgLen_iff]
    exact not_or.2 ⟨hu, hd⟩
  · rw [Ne, Instr.destReg_eq_dataLen_iff]
    exact not_or.2 ⟨hl, not_exists.2 he⟩

/-! ## Writes while a command is pending -/

/-- An admitted write anywhere but to `STATUS` is dropped, with `OVR` set (R194). -/
theorem hostWrite_dropped {s : State} (hp : s.pending ≠ none) {off : Word} {width : Width}
    (hoff : off ≠ regOff .status) (ha : admission s.params off width = none) (v : Word) :
    hostWrite off width v s =
      .next (State.acknowledged { s with status := s.status.overrun }) := by
  have hne : off.toNat ≠ Reg.status.offset := by
    rwa [← regOff_toNat, BitVec.toNat_ne_iff_ne]
  rw [hostWrite_of_admitted ha, State.busWrite_of_pending hp, State.pendingWrite, if_neg hne]

/-- Settles O48: a write to `STATUS` is as without a pending command, and a bus error has no effect. -/
theorem writesWhilePendingAreDropped : Obligations.WritesWhilePendingAreDropped := by
  intro s off width v hp
  refine ⟨fun hoff ha => hostWrite_dropped hp hoff ha v, ?_,
    fun kind hk => hostWrite_of_not_admitted hk v⟩
  rintro rfl rfl
  exact statusWriteOnlyClearsOverrun s v

/-! ## Reads while a command is pending -/

theorem Status.eq_accepted {st : Status} (hbusy : st.busy = true) (hdone : st.done = false)
    (herr : st.err = false) (hcode : st.errcode = 0#4) : st = st.accepted := by
  cases st
  simp_all [Status.accepted]

/-- Under the invariant, `STATUS` and `ERR_INFO` stay as acceptance of the pending word left them. -/
theorem State.StatusOk.of_pending {s : State} {w : Word} (h : s.StatusOk)
    (hp : s.pending = some w) :
    s.status = s.status.accepted ∧ s.errInfo = 0#32 ∧ s.cmd = w := by
  obtain ⟨hbusy, hexcl, herr, -, hcode, hinfo, hcmd⟩ := h
  rw [hp, Option.isSome_some] at hbusy
  have hdone : s.status.done = false := Bool.eq_false_iff.2 fun hd => hexcl ⟨hbusy, hd⟩
  have hzero := hcode hdone
  rw [hzero] at herr
  rw [hp, Option.some_inj] at hcmd
  exact ⟨Status.eq_accepted hbusy hdone herr hzero, hinfo hzero,
    (hcmd.resolve_left (Option.some_ne_none w)).symm⟩

theorem Status.accepted_word (st : Status) :
    st.accepted.word = if st.ovr then 0x00000009#32 else 0x00000001#32 := by
  unfold Status.accepted
  cases st.ovr <;> rfl

/-- Settles O49: the invariant fixes `CMD`, `STATUS` and `ERR_INFO`; every other register and element
outside the write set replies what it holds. -/
theorem readsOutsideTheWriteSetAreExact : Obligations.ReadsOutsideTheWriteSetAreExact := by
  rintro s w ⟨hparams, -, hstatus⟩ hp
  obtain ⟨haccepted, hinfo, hcmd⟩ := hstatus.of_pending hp
  have hword : s.status.word = _ := (congrArg _ haccepted).trans s.status.accepted_word
  have hread := @hostRead_fixed_register_reply s
  refine ⟨hcmd ▸ hread (r := .cmd) (by decide), hinfo ▸ hread (r := .errInfo) (by decide),
    hword ▸ hread (r := .status) (by decide), hread (by decide),
    setWidth_half_eq_zero_append s.keyLen ▸ hread (by decide), hread (by decide),
    hread (by decide), hread (by decide), hread (by decide), hread (by decide), fun h => ?_,
    fun h => ?_, fun h => ?_, fun b i width f hb ha hi hf => ?_⟩
  · exact setWidth_half_eq_zero_append s.msgLen ▸ hostRead_register_reply h
  · exact setWidth_half_eq_zero_append s.dataLen ▸ hostRead_register_reply h
  · exact setWidth_half_eq_zero_append s.bitsLen ▸ hostRead_register_reply h
  · obtain ⟨t, ht, hv⟩ := hostRead_elements_reply hparams hb ha hi hf
    exact ⟨t, _, ht, hv, fun j hj => joinLanes_lane f hj width.bytes_le⟩

theorem State.bufPending_congr {s s' : State} (h : s'.pending = s.pending) (b : Buf) :
    s'.bufPending b = s.bufPending b := by
  simp only [State.bufPending, State.pendingInstr, h]

theorem State.regPending_congr {s s' : State} (h : s'.pending = s.pending) (r : Reg) :
    s'.regPending r = s.regPending r := by
  simp only [State.regPending, State.pendingInstr, h]

/-- A buffer in the write set is read as draws, whatever it holds (R195). -/
theorem State.busRead_of_bufPending {s : State} {off : Word} {b : Buf}
    (hr : regionOf off.toNat = .buffer b) (hb : s.bufPending b = true) (width : Width) :
    s.busRead off width =
      joinLanes width.bytes fun j => drawElement s.draws b (off.toNat - b.base + j) := by
  simp only [State.busRead, hr, State.hostElement, hb, if_true]

/-- A register in the write set is read as a draw, whatever it holds (R195). -/
theorem State.busRead_of_regPending {s : State} {off : Word} {r : Reg}
    (hpage : regionOf off.toNat = .registers) (hr : regAt off.toNat = some r)
    (hp : s.regPending r = true) (width : Width) :
    s.busRead off width = (Config.freeHalf s.draws).setWidth 32 := by
  simp only [State.busRead, hpage, hr, State.hostReg, hp, if_true]

/-- Settles O50: the reply is a draw, and the two states have the same write set and the same draws. -/
theorem pendingWriteSetIsUnobservable : Obligations.PendingWriteSetIsUnobservable := by
  intro s s' t t' off width hp _ hd hset ht ht'
  obtain ⟨-, rfl⟩ := hostRead_cases ht
  obtain ⟨-, rfl⟩ := hostRead_cases ht'
  rw [State.replied_reply, State.replied_reply]
  obtain ⟨b, hr, hb⟩ | ⟨r, hpage, hr, hrp⟩ := hset
  · rw [State.busRead_of_bufPending hr hb,
      State.busRead_of_bufPending hr ((State.bufPending_congr hp b).trans hb), hd]
  · rw [State.busRead_of_regPending hpage hr hrp,
      State.busRead_of_regPending hpage hr ((State.regPending_congr hp r).trans hrp), hd]

/-! ## The host's steps while a command is pending -/

/-- `s` with other values of `OVR` and of the model's own fields but the schedule: all that a step of the
host other than reset can change while a command is pending. -/
def State.withHostFields (s : State) (ovr : Bool) (draws : Nat) (host : List HostStep)
    (reply : Option Word) : State :=
  { s with status := { s.status with ovr := ovr }, draws := draws, host := host, reply := reply }

theorem State.withHostFields_cell (s : State) (ovr : Bool) (draws : Nat) (host : List HostStep)
    (reply : Option Word) (b : Buf) (i : Nat) :
    (s.withHostFields ovr draws host reply).cell b i = s.cell b i :=
  State.cell_congr rfl rfl rfl rfl rfl rfl b i

/-- A write while a command is pending changes at most `OVR` (R194). -/
theorem State.pendingWrite_eq_setOvr (s : State) (off v : Word) :
    ∃ ovr, s.pendingWrite off v = { s with status := { s.status with ovr := ovr } } := by
  unfold State.pendingWrite
  split <;> exact ⟨_, rfl⟩

/-- All that a step of the host can do while a command is pending. -/
theorem hostTurn_cases_of_pending {s t : State} (hp : s.pending ≠ none)
    (h : hostTurn s = .next t) :
    (∃ ovr draws host reply, t = s.withHostFields ovr draws host reply) ∨
      ∃ rest, s.host = .reset :: rest ∧ t = State.resetInput { s with host := rest } := by
  obtain ⟨-, rfl⟩ | ⟨hs, v, rfl⟩ | ⟨off, width, v, rest, -, -, rfl⟩ | hreset := hostTurn_cases h
  · exact .inl ⟨_, _, _, _, rfl⟩
  · exact .inl ⟨_, _, _, _, rfl⟩
  · rw [State.busWrite_of_pending (s := { s with host := rest }) hp]
    obtain ⟨ovr, hovr⟩ := State.pendingWrite_eq_setOvr { s with host := rest } off v
    exact .inl ⟨ovr, s.draws, rest, none, congrArg State.acknowledged hovr⟩
  · exact .inr hreset

/-- Settles O51: such a step reads, or writes at most `OVR`. -/
theorem hostStepsLeaveThePendingCommand : Obligations.HostStepsLeaveThePendingCommand := by
  intro s t w hp hm hhead hstep
  rw [step_of_host hp hm] at hstep
  have hpending : s.takeTurn.pending ≠ none := by simp [hp]
  obtain ⟨ovr, draws, host, reply, rfl⟩ | ⟨rest, hhost, -⟩ :=
    hostTurn_cases_of_pending hpending hstep
  · exact ⟨hp, rfl, rfl, rfl, rfl, rfl, rfl, rfl, rfl, rfl, fun b i =>
      (s.takeTurn.withHostFields_cell ovr draws host reply b i).trans (s.takeTurn_cell b i)⟩
  · exact absurd (congrArg List.head? hhost) hhead

/-! ## How long a command stays pending -/

/-- The core's step completes the pending word, legal or not (R164, R169). -/
theorem coreTurn_completes (w : Word) (s : State) :
    ∃ t, coreTurn w s = .next t ∧ t.pending = none := by
  cases hw : decode w with
  | legal i =>
    obtain ⟨t, ht, hp, -⟩ := exec_completes i s
    exact ⟨t, (coreTurn_of_legal hw s).trans ht, hp⟩
  | illegal why => exact ⟨_, coreTurn_of_illegal hw s, rfl⟩

/-- The schedule named the host where it moves while a command is pending. -/
theorem State.turns_eq_cons_of_mover_host {s : State} (hm : s.mover = .host) :
    ∃ rest, s.turns = .host :: rest := by
  have hhead : s.turns.head? = some .host := by
    by_contra hne
    have hcore := s.mover_eq_core_iff.2 (.inr hne)
    rw [hm] at hcore
    cases hcore
  exact List.head?_eq_some_iff.1 hhead

/-- A step while a command is pending ends its being pending, stops at a fault, or leaves it pending
with one choice of the schedule used up. -/
theorem step_of_pending {s : State} (hp : s.pending ≠ none) :
    (∃ t, step s = .next t ∧ t.pending = none) ∨ (∃ f, step s = .fault f) ∨
      ∃ t, step s = .next t ∧ t.pending ≠ none ∧ s.turns.length = t.turns.length + 1 := by
  obtain ⟨w, hw⟩ := Option.ne_none_iff_exists'.1 hp
  cases hm : s.mover with
  | core =>
    obtain ⟨t, ht, htp⟩ := coreTurn_completes w s.takeTurn
    exact .inl ⟨t, (step_of_core hw hm).trans ht, htp⟩
  | host =>
    cases ht : step s with
    | refused r => exact absurd ht ((onlyABusErrorStopsAStep s).1 r)
    | fault f => exact .inr (.inl ⟨f, rfl⟩)
    | next t =>
      obtain ⟨rest, hturns⟩ := State.turns_eq_cons_of_mover_host hm
      rw [step_of_host hw hm] at ht
      obtain ⟨ovr, draws, host, reply, rfl⟩ | ⟨queue, -, rfl⟩ :=
        hostTurn_cases_of_pending (s := s.takeTurn) hp ht
      · refine .inr (.inr ⟨_, rfl, hp, ?_⟩)
        simp [State.withHostFields, hturns]
      · exact .inl ⟨_, rfl, rfl⟩

theorem run_succ_of_next {s t : State} (h : step s = .next t) (k : Nat) :
    Sys2Proof.core.run (k + 1) s = Sys2Proof.core.run k t := by
  have hstep : Sys2Proof.core.step s = .next t := h
  simp only [Host.Core.run, hstep]

theorem run_one_of_fault {s : State} {f : Fault} (h : step s = .fault f) :
    Sys2Proof.core.run 1 s = .fault f := by
  have hstep : Sys2Proof.core.step s = .fault f := h
  simp only [Host.Core.run, hstep]

/-- Settles O52, by induction on the length of the schedule: each step that leaves the command pending
uses up one of its choices. -/
theorem noAcceptedCommandStaysPending : Obligations.NoAcceptedCommandStaysPending := by
  intro s hp
  induction hn : s.turns.length using Nat.strong_induction_on generalizing s with
  | _ n ih =>
    obtain ⟨t, ht, htp⟩ | ⟨f, hf⟩ | ⟨t, ht, htp, hlen⟩ := step_of_pending hp
    · exact ⟨1, by omega, .inl ⟨t, run_succ_of_next ht 0, htp⟩⟩
    · exact ⟨1, by omega, .inr ⟨f, run_one_of_fault hf⟩⟩
    · obtain ⟨k, hk, hrun⟩ := ih t.turns.length (by omega) t htp rfl
      rw [← run_succ_of_next ht] at hrun
      exact ⟨k + 1, by omega, hrun⟩

end Sys2Proof.Machine
end
